-- ==== Sys2Proof/Word.lean ====
section
/-! DEFINITION. The machine's word types (spec 00_scope R8: every value is unsigned; 10_state R10, R12, R13). -/

namespace Sys2Proof

/-- One byte: a memory cell, a general register, an immediate `kk` (10_state R10, R18; 30_encoding R53). -/
abbrev Byte := BitVec 8

/-- Sixteen bits: an instruction word, `pc`, `I`, a call stack slot (10_state R12, R13, R16; 30_encoding R50). -/
abbrev Word := BitVec 16

/-- A 12-bit address field `nnn` (30_encoding R51, R53). -/
abbrev Addr12 := BitVec 12

/-- A 4-bit operand field: the row count operand `n` of `Dxyn`, a selector (30_encoding R51). -/
abbrev Nibble := BitVec 4

/-- The index of a general register, `x` or `y` of an instruction: every value names one of `V0` to `VF` (10_state R10). -/
abbrev Reg := Fin 16

/-- `VF`, register 15, the flag register by convention (10_state R11). -/
abbrev Reg.vf : Reg := 15

end Sys2Proof
end

