-- ==== Sys2Proof/Syntax.lean ====
section
/-! DEFINITION. The instructions: one constructor per row of spec/opcode_table.json, in the table's order (30_encoding R55). The
fields are those of R51, typed by their widths, so that a register index out of range or a too wide immediate cannot be built. -/

namespace Sys2Proof

/-- The 27 instructions (00_scope R2, 30_encoding R55). There is no other, no alias and no variant. -/
inductive Instr where
  /-- `00E0 CLS` (43_display R113). -/
  | cls
  /-- `00EE RET` (41_control_flow R80). -/
  | ret
  /-- `1nnn JP nnn` (41_control_flow R81). -/
  | jp (nnn : Addr12)
  /-- `2nnn CALL nnn` (41_control_flow R82). -/
  | call (nnn : Addr12)
  /-- `3xkk SE Vx,kk` (41_control_flow R83). -/
  | seImm (x : Reg) (kk : Byte)
  /-- `4xkk SNE Vx,kk` (41_control_flow R84). -/
  | sneImm (x : Reg) (kk : Byte)
  /-- `5xy0 SE Vx,Vy` (41_control_flow R85). -/
  | seReg (x y : Reg)
  /-- `6xkk LD Vx,kk` (42_load_alu R90). -/
  | ldImm (x : Reg) (kk : Byte)
  /-- `7xkk ADD Vx,kk` (42_load_alu R91). -/
  | addImm (x : Reg) (kk : Byte)
  /-- `8xy0 LD Vx,Vy` (42_load_alu R92). -/
  | ldReg (x y : Reg)
  /-- `8xy1 OR Vx,Vy` (42_load_alu R93). -/
  | orReg (x y : Reg)
  /-- `8xy2 AND Vx,Vy` (42_load_alu R94). -/
  | andReg (x y : Reg)
  /-- `8xy3 XOR Vx,Vy` (42_load_alu R95). -/
  | xorReg (x y : Reg)
  /-- `8xy4 ADD Vx,Vy` (42_load_alu R96). -/
  | addReg (x y : Reg)
  /-- `8xy5 SUB Vx,Vy` (42_load_alu R97). -/
  | subReg (x y : Reg)
  /-- `8xy6 SHR Vx` (42_load_alu R98); `y` is decoded and ignored by the operation (30_encoding R63). -/
  | shr (x y : Reg)
  /-- `8xy7 SUBN Vx,Vy` (42_load_alu R99). -/
  | subnReg (x y : Reg)
  /-- `8xyE SHL Vx` (42_load_alu R100); `y` is decoded and ignored by the operation (30_encoding R63). -/
  | shl (x y : Reg)
  /-- `9xy0 SNE Vx,Vy` (41_control_flow R86). -/
  | sneReg (x y : Reg)
  /-- `Annn LD I,nnn` (42_load_alu R101). -/
  | ldI (nnn : Addr12)
  /-- `Bnnn JP V0,nnn` (41_control_flow R87). -/
  | jpV0 (nnn : Addr12)
  /-- `Cxkk RND Vx,kk` (42_load_alu R103). -/
  | rnd (x : Reg) (kk : Byte)
  /-- `Dxyn DRW Vx,Vy,n` (43_display R114): `n + 1` rows. -/
  | drw (x y : Reg) (n : Nibble)
  /-- `Fx07 LD Vx,DT` (44_timers R124). -/
  | ldVxDt (x : Reg)
  /-- `Fx15 LD DT,Vx` (44_timers R125). -/
  | ldDtVx (x : Reg)
  /-- `Fx18 LD ST,Vx` (44_timers R126). -/
  | ldStVx (x : Reg)
  /-- `Fx1E ADD I,Vx` (42_load_alu R102). -/
  | addI (x : Reg)
  deriving DecidableEq, Repr

end Sys2Proof
end

