-- ==== Sys2Proof/WellFormed.lean ====
section
/-! DEFINITION. Well-formedness of an instruction's operands (spec 30_encoding R51, R53, R64). An operand written as a number is
checked against its field's range ONCE, here, and the check answers with the typed operand; a term of `Instr` is built from typed
operands only, so every term of `Instr` is well formed and no later check is needed. -/

namespace Sys2Proof

/-- A register operand: 0 to 15 (30_encoding R51, fields `x` and `y`). -/
def WellFormed.reg (k : Nat) : Option Reg :=
  if h : k < 16 then some ⟨k, h⟩ else none

/-- An immediate byte `kk`: 0 to 255 (30_encoding R53). -/
def WellFormed.imm8 (k : Nat) : Option Byte :=
  if k < 2 ^ 8 then some (BitVec.ofNat 8 k) else none

/-- An absolute address `nnn`: 0 to 4095 (30_encoding R53). -/
def WellFormed.addr12 (k : Nat) : Option Addr12 :=
  if k < 2 ^ 12 then some (BitVec.ofNat 12 k) else none

/-- The row count operand `n`: 0 to 15 (30_encoding R53). -/
def WellFormed.nibble (k : Nat) : Option Nibble :=
  if k < 2 ^ 4 then some (BitVec.ofNat 4 k) else none

end Sys2Proof
end

