-- ==== Sys2Proof/Decode.lean ====
section
/-! DEFINITION. Decoding and encoding (spec 30_encoding R50 to R63): the fields of a word, the total decoder that rejects by name,
the opcode map as the spec prints it, and the encoder. -/

namespace Sys2Proof

/-- Why a word is no instruction: one name per rule that makes it illegal (30_encoding R56 to R60). -/
inductive DecodeReject where
  /-- A class 0 word other than `00E0` and `00EE` (R56). -/
  | zeroClass
  /-- `5xyN` or `9xyN` with N not 0 (R57). -/
  | skipNibble
  /-- Class 8 with selector 8 to D or F (R58). -/
  | aluSelector
  /-- Class E (R59). -/
  | classE
  /-- Class F with a low byte other than 07, 15, 18, 1E (R60). -/
  | fSub
  deriving DecidableEq, Repr

/-! ## Fields (R51) -/

/-- The opcode class, bits 15:12. -/
def classOf (w : Word) : BitVec 4 := w.extractLsb' 12 4

/-- Register index `x`, bits 11:8. -/
def xOf (w : Word) : Reg := (w.extractLsb' 8 4).toFin

/-- Register index `y`, bits 7:4. -/
def yOf (w : Word) : Reg := (w.extractLsb' 4 4).toFin

/-- The low four bits `n`, bits 3:0. -/
def nOf (w : Word) : Nibble := w.extractLsb' 0 4

/-- The low byte `kk`, bits 7:0. -/
def kkOf (w : Word) : Byte := w.extractLsb' 0 8

/-- The low twelve bits `nnn`, bits 11:0. -/
def nnnOf (w : Word) : Addr12 := w.extractLsb' 0 12

/-- The word of two bytes of memory, the first (lower address) the high one: big-endian (R50, 20_memory R34). -/
def wordOfBytes (hi lo : Byte) : Word := hi.setWidth 16 <<< 8 ||| lo.setWidth 16

/-! ## The decoder (R54) -/

/-- Class 8, by selector (R55 rows 10 to 18, R58). -/
def decodeAlu (w : Word) : Except DecodeReject Instr :=
  match (nOf w).toNat with
  | 0x0 => .ok (.ldReg (xOf w) (yOf w))
  | 0x1 => .ok (.orReg (xOf w) (yOf w))
  | 0x2 => .ok (.andReg (xOf w) (yOf w))
  | 0x3 => .ok (.xorReg (xOf w) (yOf w))
  | 0x4 => .ok (.addReg (xOf w) (yOf w))
  | 0x5 => .ok (.subReg (xOf w) (yOf w))
  | 0x6 => .ok (.shr (xOf w) (yOf w))
  | 0x7 => .ok (.subnReg (xOf w) (yOf w))
  | 0xE => .ok (.shl (xOf w) (yOf w))
  | _ => .error .aluSelector

/-- Class F, by the whole low byte (R55 rows 24 to 27, R60). -/
def decodeF (w : Word) : Except DecodeReject Instr :=
  match (kkOf w).toNat with
  | 0x07 => .ok (.ldVxDt (xOf w))
  | 0x15 => .ok (.ldDtVx (xOf w))
  | 0x18 => .ok (.ldStVx (xOf w))
  | 0x1E => .ok (.addI (xOf w))
  | _ => .error .fSub

/-- The decoder, total on the 65536 words (R54): the class first, then the rest of the word as the class asks. The last arm is
class F, the one class left of the sixteen. -/
def decodeWord (w : Word) : Except DecodeReject Instr :=
  match (classOf w).toNat with
  | 0x0 => if w = 0x00E0 then .ok .cls else if w = 0x00EE then .ok .ret else .error .zeroClass
  | 0x1 => .ok (.jp (nnnOf w))
  | 0x2 => .ok (.call (nnnOf w))
  | 0x3 => .ok (.seImm (xOf w) (kkOf w))
  | 0x4 => .ok (.sneImm (xOf w) (kkOf w))
  | 0x5 => if nOf w = 0 then .ok (.seReg (xOf w) (yOf w)) else .error .skipNibble
  | 0x6 => .ok (.ldImm (xOf w) (kkOf w))
  | 0x7 => .ok (.addImm (xOf w) (kkOf w))
  | 0x8 => decodeAlu w
  | 0x9 => if nOf w = 0 then .ok (.sneReg (xOf w) (yOf w)) else .error .skipNibble
  | 0xA => .ok (.ldI (nnnOf w))
  | 0xB => .ok (.jpV0 (nnnOf w))
  | 0xC => .ok (.rnd (xOf w) (kkOf w))
  | 0xD => .ok (.drw (xOf w) (yOf w) (nOf w))
  | 0xE => .error .classE
  | _ => decodeF w

/-- The decoder over bytes as they lie in memory, total on any list: the instruction (or why there is none) of the first two
bytes, and the bytes after them; nothing where fewer than two bytes are left (R50, R66: every instruction is two bytes). -/
def decodeBytes : List Byte → Option (Except DecodeReject Instr × List Byte)
  | hi :: lo :: rest => some (decodeWord (wordOfBytes hi lo), rest)
  | _ => none

/-! ## The opcode map as the spec prints it (R55) -/

/-- The instruction's mnemonic, letter for letter as spec/opcode_table.json has it. -/
def Instr.mnemonic : Instr → String
  | .cls => "CLS"
  | .ret => "RET"
  | .jp _ => "JP_nnn"
  | .call _ => "CALL_nnn"
  | .seImm _ _ => "SE_Vx_kk"
  | .sneImm _ _ => "SNE_Vx_kk"
  | .seReg _ _ => "SE_Vx_Vy"
  | .ldImm _ _ => "LD_Vx_kk"
  | .addImm _ _ => "ADD_Vx_kk"
  | .ldReg _ _ => "LD_Vx_Vy"
  | .orReg _ _ => "OR_Vx_Vy"
  | .andReg _ _ => "AND_Vx_Vy"
  | .xorReg _ _ => "XOR_Vx_Vy"
  | .addReg _ _ => "ADD_Vx_Vy"
  | .subReg _ _ => "SUB_Vx_Vy"
  | .shr _ _ => "SHR_Vx"
  | .subnReg _ _ => "SUBN_Vx_Vy"
  | .shl _ _ => "SHL_Vx"
  | .sneReg _ _ => "SNE_Vx_Vy"
  | .ldI _ => "LD_I_nnn"
  | .jpV0 _ => "JP_V0_nnn"
  | .rnd _ _ => "RND_Vx_kk"
  | .drw _ _ _ => "DRW_Vx_Vy_n"
  | .ldVxDt _ => "LD_Vx_DT"
  | .ldDtVx _ => "LD_DT_Vx"
  | .ldStVx _ => "LD_ST_Vx"
  | .addI _ => "ADD_I_Vx"

/-- One row of the opcode map: a word `w` is this instruction exactly when `w AND mask = bits` (R55). -/
structure OpcodeRow where
  mnemonic : String
  mask : Word
  bits : Word
  deriving DecidableEq, Repr

/-- The opcode map, row by row as R55 prints it. The decoder above is written from R54 and does not use it. -/
def opcodeMap : List OpcodeRow :=
  [⟨"CLS", 0xFFFF, 0x00E0⟩, ⟨"RET", 0xFFFF, 0x00EE⟩, ⟨"JP_nnn", 0xF000, 0x1000⟩, ⟨"CALL_nnn", 0xF000, 0x2000⟩,
   ⟨"SE_Vx_kk", 0xF000, 0x3000⟩, ⟨"SNE_Vx_kk", 0xF000, 0x4000⟩, ⟨"SE_Vx_Vy", 0xF00F, 0x5000⟩,
   ⟨"LD_Vx_kk", 0xF000, 0x6000⟩, ⟨"ADD_Vx_kk", 0xF000, 0x7000⟩] ++
  [⟨"LD_Vx_Vy", 0xF00F, 0x8000⟩, ⟨"OR_Vx_Vy", 0xF00F, 0x8001⟩, ⟨"AND_Vx_Vy", 0xF00F, 0x8002⟩,
   ⟨"XOR_Vx_Vy", 0xF00F, 0x8003⟩, ⟨"ADD_Vx_Vy", 0xF00F, 0x8004⟩, ⟨"SUB_Vx_Vy", 0xF00F, 0x8005⟩,
   ⟨"SHR_Vx", 0xF00F, 0x8006⟩, ⟨"SUBN_Vx_Vy", 0xF00F, 0x8007⟩, ⟨"SHL_Vx", 0xF00F, 0x800E⟩] ++
  [⟨"SNE_Vx_Vy", 0xF00F, 0x9000⟩, ⟨"LD_I_nnn", 0xF000, 0xA000⟩, ⟨"JP_V0_nnn", 0xF000, 0xB000⟩,
   ⟨"RND_Vx_kk", 0xF000, 0xC000⟩, ⟨"DRW_Vx_Vy_n", 0xF000, 0xD000⟩, ⟨"LD_Vx_DT", 0xF0FF, 0xF007⟩,
   ⟨"LD_DT_Vx", 0xF0FF, 0xF015⟩, ⟨"LD_ST_Vx", 0xF0FF, 0xF018⟩, ⟨"ADD_I_Vx", 0xF0FF, 0xF01E⟩]

/-! ## The encoder (R52, R55) -/

/-- The four bits of a register index in its field. -/
def regBits (x : Reg) : BitVec 4 := BitVec.ofFin x

/-- Format `NNN`: class digit, address. -/
def encNnn (c : BitVec 4) (nnn : Addr12) : Word := c.setWidth 16 <<< 12 ||| nnn.setWidth 16

/-- Format `XKK`: class digit, register, byte; also `XSUB`, where the byte is a fixed sub-opcode. -/
def encXkk (c : BitVec 4) (x : Reg) (kk : Byte) : Word :=
  c.setWidth 16 <<< 12 ||| (regBits x).setWidth 16 <<< 8 ||| kk.setWidth 16

/-- Formats `XY` and `XYN`: class digit, two registers, last digit. -/
def encXyn (c : BitVec 4) (x y : Reg) (n : Nibble) : Word :=
  c.setWidth 16 <<< 12 ||| (regBits x).setWidth 16 <<< 8 ||| (regBits y).setWidth 16 <<< 4 ||| n.setWidth 16

/-- The word of an instruction (R55). -/
def encode : Instr → Word
  | .cls => 0x00E0
  | .ret => 0x00EE
  | .jp nnn => encNnn 0x1 nnn
  | .call nnn => encNnn 0x2 nnn
  | .seImm x kk => encXkk 0x3 x kk
  | .sneImm x kk => encXkk 0x4 x kk
  | .seReg x y => encXyn 0x5 x y 0x0
  | .ldImm x kk => encXkk 0x6 x kk
  | .addImm x kk => encXkk 0x7 x kk
  | .ldReg x y => encXyn 0x8 x y 0x0
  | .orReg x y => encXyn 0x8 x y 0x1
  | .andReg x y => encXyn 0x8 x y 0x2
  | .xorReg x y => encXyn 0x8 x y 0x3
  | .addReg x y => encXyn 0x8 x y 0x4
  | .subReg x y => encXyn 0x8 x y 0x5
  | .shr x y => encXyn 0x8 x y 0x6
  | .subnReg x y => encXyn 0x8 x y 0x7
  | .shl x y => encXyn 0x8 x y 0xE
  | .sneReg x y => encXyn 0x9 x y 0x0
  | .ldI nnn => encNnn 0xA nnn
  | .jpV0 nnn => encNnn 0xB nnn
  | .rnd x kk => encXkk 0xC x kk
  | .drw x y n => encXyn 0xD x y n
  | .ldVxDt x => encXkk 0xF x 0x07
  | .ldDtVx x => encXkk 0xF x 0x15
  | .ldStVx x => encXkk 0xF x 0x18
  | .addI x => encXkk 0xF x 0x1E

/-! ## The host's question about the table -/

/-- The two bytes, in memory order, of the instruction whose bits the opcode table numbers `w`: the table's bit 0 is the word's
least significant bit, and the word lies big-endian (R50). Bits at `nbits` and above are 0. -/
def tableBytes (nbits w : Nat) : List Byte :=
  [BitVec.ofNat 8 (w % 2 ^ nbits / 256), BitVec.ofNat 8 (w % 2 ^ nbits)]

/-- What the decoder reads from an instruction whose bits are `w` (`nbits` of them, numbered as spec/opcode_table.json numbers
them), laid out in memory order; none where it refuses. -/
def decodeTableWord (nbits w : Nat) : Option Instr :=
  match decodeBytes (tableBytes nbits w) with
  | some (.ok i, _) => some i
  | _ => none

end Sys2Proof
end

