-- ==== Sys2Proof/Config.lean ====
section
/-! DEFINITION. The machine's fixed parameters (spec 00_scope R5), its open parameters and the environment's free answers
(00_scope R6). What is open is an opaque constant: nothing in Lean can evaluate it or prove a value of it, so whatever is proved
holds for every value. -/

namespace Sys2Proof

/-- `MEM_SIZE`: memory capacity in bytes, addresses 0 to 4095 (00_scope R5, 20_memory R30). -/
abbrev Config.memSize : Nat := 4096

/-- `PROG_BASE`: where the program image is loaded and where `pc` starts (00_scope R5). -/
abbrev Config.progBase : Nat := 512

/-- `PROG_MAX`: the largest program image in bytes (00_scope R5). -/
abbrev Config.progMax : Nat := 3584

/-- `TICK_MS`: one timer tick in milliseconds, exactly 50/3 (44_timers R120, decision D17; log 14). -/
def Config.tickMs : Rat := 50 / 3

/-- The open parameter `GLYPH_TABLE`: the 80 bytes that reset puts at addresses 0 to 79 (20_memory R44, decision D9; log 3).
Free: no value is chosen. -/
opaque Config.glyphTable : Fin 80 → Byte

/-- The two candidate values the spec gives the open parameter `I_ADD_OVERFLOW` (42_load_alu R102). -/
inductive IAddPolicy where
  /-- `I <- s mod 65536`. -/
  | wrap
  /-- The sum raises a fault of the model's own, none of the six kinds. -/
  | fault
  deriving DecidableEq, Repr, Inhabited

/-- The open parameter `I_ADD_OVERFLOW`: what `Fx1E` does when its sum exceeds 0xFFFF (42_load_alu R102, decision D12; log 9).
Free: neither value is chosen, and both are modelled. -/
opaque Config.iAddOverflow : IAddPolicy

/-- The random source: the byte the `k`-th executed `Cxkk` gets (42_load_alu R103, decision D19; log 8).
Free: no law holds of the bytes. -/
opaque Config.rndByte : Nat → Byte

/-- The clock input: how far the clock has moved between the previous sample and the `k`-th, in milliseconds (44_timers R123,
decision D17; log 7). Free: any non-negative rational number, zero included, which is exactly "successive samples never
decrease". -/
opaque Config.clockAdvance : Nat → NNRat

/-- Whether a snapshot whose first clock sample is the `k`-th takes that sample for the sound timer (10_state R23, decision D18; log
15). Free: the spec does not order the two samples. -/
opaque Config.snapshotStFirst : Nat → Bool

end Sys2Proof
end

