-- ==== Sys2Proof/Machine/State.lean ====
section
/-! DEFINITION. The machine's state, the fault kinds, the two ways a step can end without a next state, and the state after reset
(spec 10_state R10 to R25, 60_exceptions R130, 70_reset_and_hazards R150). -/

namespace Sys2Proof.Machine

/-- The six fault kinds of the spec (60_exceptions R130). A step that raises one takes a NEXT state with the latch set (R138);
none of them ends a run of the model. -/
inductive FaultKind where
  /-- F1: the word has no defined behaviour (R131). -/
  | unimplementedOpcode
  /-- F2: `5xyN` or `9xyN` with N not 0 (R132). -/
  | invalidEncoding
  /-- F3: `2nnn` with `sp = 15` (R133). -/
  | stackOverflow
  /-- F4: `00EE` with `sp = 0` (R134). -/
  | stackUnderflow
  /-- F5: a fetch, a sprite-row read or a screen row write out of bounds (R135). -/
  | memoryOutOfBounds
  /-- F6: the loader's image is longer than 3584 bytes; never raised by a step (R136). -/
  | loadOversized
  deriving DecidableEq, Repr

/-- Memory: the cells that hold something else than what reset put there, by strictly rising address (log 3). -/
abbrev Memory := List Host.Cell

/-- The pixel grid, row by row: `screen[r][c]` is `Px[c, r]`, true a lit pixel (10_state R19). -/
abbrev Screen := Vector (Vector Bool 64) 32

/-- The whole state (10_state R10 to R21) and, last, the model's own record of the environment's answers (logs 7 and 8). -/
structure State where
  /-- `V[0]` to `V[15]` (R10). -/
  v : Vector Byte 16
  /-- The address register `I` (R12). -/
  i : Word
  /-- The program counter (R13). -/
  pc : Word
  /-- The stack pointer: how many return addresses are held (R15). -/
  sp : Fin 16
  /-- The call stack slots; slot 0 is never used (R16). -/
  stack : Vector Word 16
  /-- Memory (R18, 20_memory R30). -/
  mem : Memory
  /-- The screen (R19). -/
  screen : Screen
  /-- `DT.expiry`, milliseconds (R20). -/
  dt : Rat
  /-- `ST.expiry`, milliseconds (R20). -/
  st : Rat
  /-- The fault latch (R21). -/
  fault : Option FaultKind
  /-- The model's own: the previous clock sample (44_timers R123; log 7). -/
  clockLast : Rat
  /-- The model's own: how many clock samples have been taken (log 7). -/
  clockDraws : Nat
  /-- The model's own: how many random bytes have been taken (42_load_alu R103; log 8). -/
  rndDraws : Nat
  deriving DecidableEq, Repr

/-- How the model itself can stop where the spec gives the machine no next state it could be held to. -/
inductive Fault where
  /-- Raised by `Fx1E` alone, when its sum exceeds 0xFFFF and the open parameter `I_ADD_OVERFLOW` is `fault`: the model's own
  fault, none of the six kinds (42_load_alu R102, 60_exceptions R137, decision D12; log 9). Safe: where the machine wraps,
  nothing is proved past it. -/
  | iAddOverflow
  deriving DecidableEq, Repr

/-- Why an instruction has no meaning. -/
inductive Refusal where
  /-- Raised by `exec`'s arm of an instruction that is not modelled yet; no arm is left that raises it. Safe: nothing is proved
  past it. -/
  | notModelled (mnemonic : String)
  deriving DecidableEq, Repr

/-- The state right after reset (70_reset_and_hazards R150). `pc` is the source's; `v`, `i`, `sp`, `screen`, the expired timers
and the memory's zero fill are the spec's own decisions D2 to D8 (logs 1, 3, 4); the stack slots, which the spec leaves
unspecified (D5), and the three fields of the environment's record are DESIGN CHOICEs of the model (logs 2, 7, 8). No program
is in memory: the loader places it after reset (log 6). -/
def State.reset : State where
  v := Vector.replicate 16 0
  i := 0
  pc := 512
  sp := 0
  stack := Vector.replicate 16 0
  mem := []
  screen := Vector.replicate 32 (Vector.replicate 64 false)
  dt := 0
  st := 0
  fault := none
  clockLast := 0
  clockDraws := 0
  rndDraws := 0

end Sys2Proof.Machine
end

