-- ==== Sys2Proof/Machine/Flags.lean ====
section
/-! DEFINITION. Every flag the instructions leave in `VF` (spec 10_state R11, 42_load_alu R105): each is 0 or 1 and is computed
from the operands as they were before any write (R104). -/

namespace Sys2Proof.Machine

/-- A flag as the byte `VF` holds: 1 or 0 (10_state R11). -/
def flagByte (b : Bool) : Byte := if b then 1 else 0

/-- `8xy4`: 1 iff the sum of the two bytes overflows 8 bits (42_load_alu R96, R105 c). -/
def carryFlag (a b : Byte) : Byte := flagByte (256 ≤ a.toNat + b.toNat)

/-- `8xy5`, and `8xy7` with the operands exchanged: 1 iff `a - b` needs no borrow (42_load_alu R97, R99, R105 d). -/
def noBorrowFlag (a b : Byte) : Byte := flagByte (b.toNat ≤ a.toNat)

/-- `8xy6`: the bit shifted out at the bottom, bit 0 (42_load_alu R98). -/
def droppedLowFlag (a : Byte) : Byte := flagByte (a.getLsbD 0)

/-- `8xyE`: the bit shifted out at the top, bit 7 (42_load_alu R100). -/
def droppedHighFlag (a : Byte) : Byte := flagByte (a.getLsbD 7)

/-- `Dxyn`: 1 iff any pixel of any row changed value (43_display R114). -/
def changeFlag (any : Bool) : Byte := flagByte any

end Sys2Proof.Machine
end

