-- ==== Sys2Proof/Machine/Ops.lean ====
section
/-! DEFINITION. The named operations over the state: one writer per field, memory reads and writes, raising a fault, fetching,
the call stack, the screen's row write, the timers, the clock and the random source. -/

namespace Sys2Proof.Machine

/-! ## One writer per field -/

/-- `V[x] <- b` (00_scope R9). -/
def State.setReg (s : State) (x : Reg) (b : Byte) : State := { s with v := s.v.set x.val b x.isLt }

/-- `V[x]`. -/
def State.reg (s : State) (x : Reg) : Byte := s.v[x.val]

/-- `I <- w`. -/
def State.setI (s : State) (w : Word) : State := { s with i := w }

/-- `pc <- w`. -/
def State.setPc (s : State) (w : Word) : State := { s with pc := w }

/-- `sp <- k`. -/
def State.setSp (s : State) (k : Fin 16) : State := { s with sp := k }

/-- `stack[k]`. -/
def State.slot (s : State) (k : Fin 16) : Word := s.stack[k.val]

/-- `stack[k] <- w`. -/
def State.setSlot (s : State) (k : Fin 16) (w : Word) : State := { s with stack := s.stack.set k.val w k.isLt }

/-- The memory, replaced: the load port only (20_memory R33). -/
def State.setMem (s : State) (m : Memory) : State := { s with mem := m }

/-- The pixel grid, replaced (10_state R19). -/
def State.setScreen (s : State) (p : Screen) : State := { s with screen := p }

/-- `Px[c, r]`. -/
def State.pixel (s : State) (c : Fin 64) (r : Fin 32) : Bool := s.screen[r.val][c.val]

/-- `DT.expiry <- e`. -/
def State.setDt (s : State) (e : Rat) : State := { s with dt := e }

/-- `ST.expiry <- e`. -/
def State.setSt (s : State) (e : Rat) : State := { s with st := e }

/-- The fault latch. -/
def State.setFault (s : State) (k : FaultKind) : State := { s with fault := some k }

/-- The model's record of the clock: the last sample and the number of samples (log 7). -/
def State.setClock (s : State) (last : Rat) (draws : Nat) : State := { s with clockLast := last, clockDraws := draws }

/-- The model's record of the random source: the number of bytes taken (log 8). -/
def State.setRnd (s : State) (draws : Nat) : State := { s with rndDraws := draws }

/-! ## Memory (20_memory) -/

/-- What reset puts at an address, and so what an unlisted address reads as: `GLYPH_TABLE` at 0 to 79, zero elsewhere
(20_memory R31, R44; log 3). -/
def Memory.resetByte (a : Nat) : Byte :=
  if h : a < 80 then Config.glyphTable ⟨a, h⟩ else 0

/-- `mem[a]`, without the bounds check. -/
def Memory.read : Memory → Nat → Byte
  | [], a => Memory.resetByte a
  | (b, v) :: m, a => if a = b then v else Memory.read m a

/-- The cell `a` with value `v` before the cells `m`, left out where it holds what an unlisted address reads as. -/
def Memory.cons (m : Memory) (a : Nat) (v : Byte) : Memory :=
  if v = Memory.resetByte a then m else (a, v) :: m

/-- `mem[a] <- v`, without the bounds check; keeps the canonical form (log 3). -/
def Memory.write : Memory → Nat → Byte → Memory
  | [], a, v => Memory.cons [] a v
  | (b, w) :: m, a, v =>
    if a < b then Memory.cons ((b, w) :: m) a v
    else if a = b then Memory.cons m a v
    else (b, w) :: Memory.write m a v

/-- Addresses rise strictly from `lo` up and stay below the capacity, and no cell holds what an unlisted address reads as. -/
def Memory.wfFrom : Nat → Memory → Bool
  | _, [] => true
  | lo, (a, v) :: m => decide (lo ≤ a) && decide (a < Config.memSize) && (v != Memory.resetByte a) && Memory.wfFrom (a + 1) m

/-- The canonical form of memory. -/
def Memory.wf (m : Memory) : Bool := Memory.wfFrom 0 m

/-- `MemRead(addr, 1)`: the address is a natural number, never reduced (20_memory R32, R37). -/
def Memory.readByte (m : Memory) (addr : Nat) : Except FaultKind Byte :=
  if addr < Config.memSize then .ok (m.read addr) else .error .memoryOutOfBounds

/-- `MemRead(addr, 2)`: big-endian; out of bounds when the second byte is (20_memory R32, R34). -/
def Memory.readWord (m : Memory) (addr : Nat) : Except FaultKind Word :=
  if addr + 1 < Config.memSize then .ok (wordOfBytes (m.read addr) (m.read (addr + 1))) else .error .memoryOutOfBounds

/-- `MemWrite(addr, 1, v)`: the load port's write, bounds-checked; no instruction performs it (20_memory R33). -/
def Memory.writeByte (m : Memory) (addr : Nat) (v : Byte) : Except FaultKind Memory :=
  if addr < Config.memSize then .ok (m.write addr v) else .error .memoryOutOfBounds

/-! ## Taking a fault (60_exceptions R138) -/

/-- `raise k`: the latch is set and nothing else happens; what the step did before stands, what it would do after does not
(R138, R139). There is no return from a fault but reset (R142). -/
def raise (k : FaultKind) (s : State) : Host.Outcome State Fault Refusal := .next (s.setFault k)

/-- The kind an illegal word raises (30_encoding R56 to R60). -/
def rejectKind : DecodeReject → FaultKind
  | .zeroClass => .unimplementedOpcode
  | .skipNibble => .invalidEncoding
  | .aluSelector => .unimplementedOpcode
  | .classE => .unimplementedOpcode
  | .fSub => .unimplementedOpcode

/-! ## Fetch and the program counter (40_step_cycle) -/

/-- `pc <- pc + 2`: the advance of the step (R72) and of a taken skip (41_control_flow R83 to R86). -/
def State.advance (s : State) : State := s.setPc (s.pc + 2)

/-- `Fetch()`: the word at `pc`, and the state with `pc` advanced; where the read faults nothing changes (R71, R72). -/
def fetch (s : State) : Except FaultKind (Word × State) :=
  match s.mem.readWord s.pc.toNat with
  | .ok w => .ok (w, s.advance)
  | .error k => .error k

/-- The state after an instruction that skips the next one if `b` (41_control_flow R83 to R86). -/
def State.skipIf (s : State) (b : Bool) : State := if b then s.advance else s

/-! ## The call stack (41_control_flow R80, R82) -/

/-- Push a return address: `sp` first, then the slot; none when `sp` is already 15. -/
def State.push (s : State) (w : Word) : Option State :=
  if h : s.sp.val < 15 then
    let top : Fin 16 := ⟨s.sp.val + 1, by omega⟩
    some ((s.setSp top).setSlot top w)
  else none

/-- Pop a return address: the slot `sp` names, kept, and `sp` one less; none when `sp` is 0. -/
def State.pop (s : State) : Option (Word × State) :=
  if s.sp.val = 0 then none
  else some (s.slot s.sp, s.setSp ⟨s.sp.val - 1, by omega⟩)

/-! ## The clock and the timers (44_timers) -/

/-- `NOW()`: one sample, not less than the previous one and otherwise free (R123; log 7). -/
def sampleNow (s : State) : Rat × State :=
  let now := s.clockLast + (Config.clockAdvance s.clockDraws).val
  (now, s.setClock now (s.clockDraws + 1))

/-- `T.set(ticks)` at the sample `now`: the new expiry, exact (R121). -/
def timerExpiry (now : Rat) (ticks : Byte) : Rat := now + (ticks.toNat : Rat) * Config.tickMs

/-- `T.remaining_ticks()` at the sample `now`: exact but for the one floor, saturated at 255 (R122). -/
def remainingTicks (expiry now : Rat) : Byte :=
  if expiry ≤ now then 0
  else BitVec.ofNat 8 (min ((expiry - now) / Config.tickMs).floor.toNat 255)

/-! ## The random source (42_load_alu R103) -/

/-- `RND()`: the next byte of the random source, free (log 8). -/
def drawRnd (s : State) : Byte × State :=
  (Config.rndByte s.rndDraws, s.setRnd (s.rndDraws + 1))

/-! ## The screen (43_display) -/

/-- `clear()`: every pixel false (R111). -/
def clearScreen : Screen := Vector.replicate 32 (Vector.replicate 64 false)

/-- One row after `byte` is written at column `c0`: the up to eight columns `c0` to `c0 + 7` that exist take the byte's bits, bit
7 leftmost, whatever they held; every other column stays (R112: overwrite, horizontal clipping). -/
def overwriteRow (row : Vector Bool 64) (c0 : Nat) (byte : Byte) : Vector Bool 64 :=
  Vector.ofFn fun c => if c0 ≤ c.val ∧ c.val < c0 + 8 then byte.getLsbD (7 - (c.val - c0)) else row[c.val]

/-- `draw_row(c0, r, byte)`: the new screen, and whether any written pixel changed; the row check comes first and
unconditionally (R112, decision D14; log 12). Columns not written keep their value, so "a written pixel changed" is "the row
changed". -/
def drawRow (scr : Screen) (c0 r : Nat) (byte : Byte) : Except FaultKind (Screen × Bool) :=
  if h : r < 32 then
    let old := scr[r]
    let new := overwriteRow old c0 byte
    .ok (scr.set r new h, new != old)
  else .error .memoryOutOfBounds

/-- The rows of `Dxyn` still to draw: `k` of them from row `i` on, each one read from memory at `base + i` and then written at
screen row `r0 + i`. Answers the screen as far as it was drawn, and whether any pixel changed, or the kind of the first fault
(43_display R114; 60_exceptions R139 d, R140). -/
def drawRows (m : Memory) (base c0 r0 : Nat) : Nat → Nat → Screen → Bool → Screen × Except FaultKind Bool
  | 0, _, scr, any => (scr, .ok any)
  | k + 1, i, scr, any =>
    match m.readByte (base + i) with
    | .error e => (scr, .error e)
    | .ok byte =>
      match drawRow scr c0 (r0 + i) byte with
      | .error e => (scr, .error e)
      | .ok (scr', ch) => drawRows m base c0 r0 k (i + 1) scr' (any || ch)

end Sys2Proof.Machine
end

