-- ==== Sys2Proof/Machine/Operands.lean ====
section
/-! DEFINITION. The operand forms (spec 30_encoding R53): a register operand is `State.reg`; the immediates are widened, or counted,
here. There is no other operand form: no sign extension, no scaling, no memory operand but the sprite row (20_memory R38). -/

namespace Sys2Proof.Machine

/-- `zext_16(nnn)`: an absolute address in a 16-bit register, the top four bits 0 (30_encoding R53). -/
def addrOperand (nnn : Addr12) : Word := nnn.setWidth 16

/-- `zext_16(b)`: a byte added to a 16-bit value (41_control_flow R87, 42_load_alu R102). -/
def zext16 (b : Byte) : Word := b.setWidth 16

/-- How many rows the operand `n` of `Dxyn` means: `n + 1` (43_display R114; log 17). -/
def rowCount (n : Nibble) : Nat := n.toNat + 1

/-- The rows of `Dxyn` with its operands read: the sprite at `I`, the column `V[x]`, the first row `V[y]`, all as integers that
are never reduced (43_display R114, decision D13; log 12). -/
def drawSprite (s : State) (x y : Reg) (n : Nibble) : Screen × Except FaultKind Bool :=
  drawRows s.mem s.i.toNat (s.reg x).toNat (s.reg y).toNat (rowCount n) 0 s.screen false

/-- The two operands read first, then the result into `V[x]`, then the flag into `VF`: the order of `8xy4`, `8xy5`, `8xy7`, in
which the flag stands when `x = 15` (42_load_alu R104, decision D11; log 10). -/
def State.setResultThenFlag (s : State) (x : Reg) (result flag : Byte) : State :=
  (s.setReg x result).setReg Reg.vf flag

/-- The flag into `VF`, then the result into `V[x]`: the order of `8xy6` and `8xyE`, in which the result stands when `x = 15`
(42_load_alu R104, decision D11; log 10). -/
def State.setFlagThenResult (s : State) (x : Reg) (flag result : Byte) : State :=
  (s.setReg Reg.vf flag).setReg x result

end Sys2Proof.Machine
end

