-- ==== Sys2Proof/Machine/Control.lean ====
section
/-! DEFINITION. The control transfer instructions (spec 41_control_flow). On entry `pc` is the instruction's address plus 2. -/

namespace Sys2Proof.Machine

/-- `00EE RET` (R80). -/
def execRet (s : State) : Host.Outcome State Fault Refusal :=
  match s.pop with
  | some (w, s') => .next (s'.setPc w)
  | none => raise .stackUnderflow s

/-- `1nnn JP nnn` (R81). -/
def execJp (nnn : Addr12) (s : State) : Host.Outcome State Fault Refusal :=
  .next (s.setPc (addrOperand nnn))

/-- `2nnn CALL nnn` (R82): the return address is the advanced `pc`. -/
def execCall (nnn : Addr12) (s : State) : Host.Outcome State Fault Refusal :=
  match s.push s.pc with
  | some s' => .next (s'.setPc (addrOperand nnn))
  | none => raise .stackOverflow s

/-- `3xkk SE Vx,kk` (R83). -/
def execSeImm (x : Reg) (kk : Byte) (s : State) : Host.Outcome State Fault Refusal :=
  .next (s.skipIf (s.reg x == kk))

/-- `4xkk SNE Vx,kk` (R84). -/
def execSneImm (x : Reg) (kk : Byte) (s : State) : Host.Outcome State Fault Refusal :=
  .next (s.skipIf (s.reg x != kk))

/-- `5xy0 SE Vx,Vy` (R85). -/
def execSeReg (x y : Reg) (s : State) : Host.Outcome State Fault Refusal :=
  .next (s.skipIf (s.reg x == s.reg y))

/-- `9xy0 SNE Vx,Vy` (R86). -/
def execSneReg (x y : Reg) (s : State) : Host.Outcome State Fault Refusal :=
  .next (s.skipIf (s.reg x != s.reg y))

/-- `Bnnn JP V0,nnn` (R87): no bounds check, the sum fits 16 bits. -/
def execJpV0 (nnn : Addr12) (s : State) : Host.Outcome State Fault Refusal :=
  .next (s.setPc (addrOperand nnn + zext16 (s.reg 0)))

end Sys2Proof.Machine
end

