-- ==== Sys2Proof/Machine/Display.lean ====
section
/-! DEFINITION. The display instructions (spec 43_display). -/

namespace Sys2Proof.Machine

/-- `00E0 CLS` (R113, R111): `VF` is not written. -/
def execCls (s : State) : Host.Outcome State Fault Refusal :=
  .next (s.setScreen clearScreen)

/-- `Dxyn DRW Vx,Vy,n` (R114): the rows, then `VF`; on a fault the rows already drawn stay and `VF` is not written
(60_exceptions R139 d). -/
def execDrw (x y : Reg) (n : Nibble) (s : State) : Host.Outcome State Fault Refusal :=
  match drawSprite s x y n with
  | (scr, .ok any) => .next ((s.setScreen scr).setReg Reg.vf (changeFlag any))
  | (scr, .error k) => raise k (s.setScreen scr)

end Sys2Proof.Machine
end

