-- ==== Sys2Proof/Machine/LoadAlu.lean ====
section
/-! DEFINITION. The load, arithmetic, logic and random instructions (spec 42_load_alu). Every operand is read from the entry state
`s` (R104). -/

namespace Sys2Proof.Machine

/-- `6xkk LD Vx,kk` (R90). -/
def execLdImm (x : Reg) (kk : Byte) (s : State) : Host.Outcome State Fault Refusal :=
  .next (s.setReg x kk)

/-- `7xkk ADD Vx,kk` (R91): modulo 256, no flag. -/
def execAddImm (x : Reg) (kk : Byte) (s : State) : Host.Outcome State Fault Refusal :=
  .next (s.setReg x (s.reg x + kk))

/-- `8xy0 LD Vx,Vy` (R92). -/
def execLdReg (x y : Reg) (s : State) : Host.Outcome State Fault Refusal :=
  .next (s.setReg x (s.reg y))

/-- `8xy1 OR Vx,Vy` (R93): no flag. -/
def execOrReg (x y : Reg) (s : State) : Host.Outcome State Fault Refusal :=
  .next (s.setReg x (s.reg x ||| s.reg y))

/-- `8xy2 AND Vx,Vy` (R94): no flag. -/
def execAndReg (x y : Reg) (s : State) : Host.Outcome State Fault Refusal :=
  .next (s.setReg x (s.reg x &&& s.reg y))

/-- `8xy3 XOR Vx,Vy` (R95): no flag. -/
def execXorReg (x y : Reg) (s : State) : Host.Outcome State Fault Refusal :=
  .next (s.setReg x (s.reg x ^^^ s.reg y))

/-- `8xy4 ADD Vx,Vy` (R96): `VF` is the carry. -/
def execAddReg (x y : Reg) (s : State) : Host.Outcome State Fault Refusal :=
  .next (s.setResultThenFlag x (s.reg x + s.reg y) (carryFlag (s.reg x) (s.reg y)))

/-- `8xy5 SUB Vx,Vy` (R97): `VF` is 1 when no borrow. -/
def execSubReg (x y : Reg) (s : State) : Host.Outcome State Fault Refusal :=
  .next (s.setResultThenFlag x (s.reg x - s.reg y) (noBorrowFlag (s.reg x) (s.reg y)))

/-- `8xy6 SHR Vx` (R98): logical; `y` is ignored. -/
def execShr (x _y : Reg) (s : State) : Host.Outcome State Fault Refusal :=
  .next (s.setFlagThenResult x (droppedLowFlag (s.reg x)) (s.reg x >>> 1))

/-- `8xy7 SUBN Vx,Vy` (R99): the operands of `8xy5` exchanged. -/
def execSubnReg (x y : Reg) (s : State) : Host.Outcome State Fault Refusal :=
  .next (s.setResultThenFlag x (s.reg y - s.reg x) (noBorrowFlag (s.reg y) (s.reg x)))

/-- `8xyE SHL Vx` (R100): `y` is ignored. -/
def execShl (x _y : Reg) (s : State) : Host.Outcome State Fault Refusal :=
  .next (s.setFlagThenResult x (droppedHighFlag (s.reg x)) (s.reg x <<< 1))

/-- `Annn LD I,nnn` (R101). -/
def execLdI (nnn : Addr12) (s : State) : Host.Outcome State Fault Refusal :=
  .next (s.setI (addrOperand nnn))

/-- `Fx1E ADD I,Vx` (R102): a sum of at most 0xFFFF is stored; above it the open parameter `I_ADD_OVERFLOW` decides between the
spec's two candidates (decision D12; log 9). No flag. -/
def execAddI (x : Reg) (s : State) : Host.Outcome State Fault Refusal :=
  if s.i.toNat + (s.reg x).toNat ≤ 0xFFFF then .next (s.setI (s.i + zext16 (s.reg x)))
  else
    match Config.iAddOverflow with
    | .wrap => .next (s.setI (s.i + zext16 (s.reg x)))
    | .fault => .fault .iAddOverflow

/-- `Cxkk RND Vx,kk` (R103): one free byte, masked. -/
def execRnd (x : Reg) (kk : Byte) (s : State) : Host.Outcome State Fault Refusal :=
  .next ((drawRnd s).2.setReg x ((drawRnd s).1 &&& kk))

end Sys2Proof.Machine
end

