-- ==== Sys2Proof/Machine/TimerInstr.lean ====
section
/-! DEFINITION. The timer instructions (spec 44_timers). Each takes exactly one clock sample (R123, decision D18). -/

namespace Sys2Proof.Machine

/-- `Fx07 LD Vx,DT` (R124, R122). -/
def execLdVxDt (x : Reg) (s : State) : Host.Outcome State Fault Refusal :=
  .next ((sampleNow s).2.setReg x (remainingTicks s.dt (sampleNow s).1))

/-- `Fx15 LD DT,Vx` (R125, R121). -/
def execLdDtVx (x : Reg) (s : State) : Host.Outcome State Fault Refusal :=
  .next ((sampleNow s).2.setDt (timerExpiry (sampleNow s).1 (s.reg x)))

/-- `Fx18 LD ST,Vx` (R126, R121). -/
def execLdStVx (x : Reg) (s : State) : Host.Outcome State Fault Refusal :=
  .next ((sampleNow s).2.setSt (timerExpiry (sampleNow s).1 (s.reg x)))

end Sys2Proof.Machine
end

