-- ==== Sys2Proof/Machine/ExecWord.lean ====
section
/-! DEFINITION. `Exec(w)` and `step()` as the spec splits them (40_step_cycle R70 to R76). -/

namespace Sys2Proof.Machine

/-- `Exec(w)`: decode and dispatch; an illegal word raises its kind and changes nothing else. `s` is the state with `pc` already
advanced, and memory at `pc` is not read again (R73, R76). -/
def execWord (w : Word) (s : State) : Host.Outcome State Fault Refusal :=
  match decodeWord w with
  | .ok i => exec i s
  | .error r => raise (rejectKind r) s

/-- `Fetch` and then `Exec`, of a machine whose latch is clear (R70, R71). -/
def runStep (s : State) : Host.Outcome State Fault Refusal :=
  match fetch s with
  | .ok (w, s') => execWord w s'
  | .error k => raise k s

end Sys2Proof.Machine
end

