-- ==== Sys2Proof/Machine/Ports.lean ====
section
/-! DEFINITION. The host's ports (spec 92 D1): LOAD, used once right after reset, SNAPSHOT, and the memory block's
`glyph_address`. No step uses them. -/

namespace Sys2Proof.Machine

/-- Copy bytes into memory from address `a` up. -/
def Memory.copy : Memory → Nat → List Byte → Memory
  | m, _, [] => m
  | m, a, b :: bs => Memory.copy (m.write a b) (a + 1) bs

/-- The loader: the image verbatim at 512 upward; an image longer than 3584 bytes is refused as `LoadOversized` (20_memory R45,
60_exceptions R136, decision D20). -/
def loadImage (image : List Byte) (s : State) : Except FaultKind State :=
  if image.length ≤ Config.progMax then .ok (s.setMem (Memory.copy s.mem Config.progBase image))
  else .error .loadOversized

/-- Reset, which includes `load_glyphs()`, and then the one load: the state in which the first step is taken, or no machine at all
(70_reset_and_hazards R152, R159; log 6). -/
def boot (image : List Byte) : Except FaultKind State := loadImage image State.reset

/-- `glyph_address(digit)`: the address of a glyph, or the table's base for a digit outside 0 to 15; never a fault
(20_memory R43, decision D23; log 16). -/
def glyphAddress (digit : Nat) : Nat := if digit ≤ 15 then digit * 5 else 0

/-- What the host sees (10_state R23). -/
structure Snapshot where
  v : Vector Byte 16
  i : Word
  pc : Word
  sp : Fin 16
  stack : Vector Word 16
  screen : Screen
  /-- `DT.remaining_ticks()`. -/
  dtTicks : Byte
  /-- `ST.remaining_ticks()`. -/
  stTicks : Byte
  fault : Option FaultKind
  deriving DecidableEq, Repr

/-- The snapshot: what the host sees, and the state after it. It samples the clock once per timer and nothing else of the state
changes; the samples are samples of `NOW()` like any other, so the record of the clock moves on (10_state R23, 44_timers R123,
decisions D17, D18, D27). Which timer is sampled first is free (log 15). -/
def snapshot (s : State) : Snapshot × State :=
  let first := sampleNow s
  let second := sampleNow first.2
  let stFirst := Config.snapshotStFirst s.clockDraws
  ({ v := s.v
     i := s.i
     pc := s.pc
     sp := s.sp
     stack := s.stack
     screen := s.screen
     dtTicks := remainingTicks s.dt (if stFirst then second.1 else first.1)
     stTicks := remainingTicks s.st (if stFirst then first.1 else second.1)
     fault := s.fault },
   second.2)

/-- Where the next fetch reads, moved to the load address if nothing can be fetched at `pc` (log 6). -/
def fetchAddress (s : State) : Word := if s.pc.toNat + 1 < Config.memSize then s.pc else 512

/-- The state with bytes placed where the next step fetches, and able to fetch them: the latch clear (log 6). -/
def placeBytes (bs : List Byte) (s : State) : State :=
  { s with pc := fetchAddress s, fault := none, mem := Memory.copy s.mem (fetchAddress s).toNat bs }

end Sys2Proof.Machine
end

