-- ==== Sys2Proof/Machine/Step.lean ====
section
/-! DEFINITION. One step request (spec 40_step_cycle R70, R75), and the host's way to place an instruction under the fetch. -/

namespace Sys2Proof.Machine

/-- `step()`: a faulted machine does nothing (R75 c); else fetch, advance, decode, execute (R70). -/
def step (s : State) : Host.Outcome State Fault Refusal :=
  match s.fault with
  | some _ => .next s
  | none => runStep s

/-- `s` with the instruction of bits `w` (as spec/opcode_table.json numbers them) stored where `step` fetches next, so that the
very next step runs it (log 6). -/
def State.withFetchWord (s : State) (nbits w : Nat) : State := placeBytes (tableBytes nbits w) s

end Sys2Proof.Machine
end

