-- ==== Sys2Proof/Safety.lean ====
section
/-! DEFINITION. The terms claims are stated in: the parts of the state and what a frame says, the machine's invariant, which fault a
step must raise, who may write what, the idle state, and the row write as the spec's loop. -/

namespace Sys2Proof.Machine

/-! ## Parts and frames -/

/-- The pieces a state is made of, one register, slot, byte of memory or pixel at a time (spec 10_state, section 12). -/
inductive Part where
  | reg (r : Reg)
  | addr
  | pc
  | sp
  | slot (k : Fin 16)
  | byte (a : Nat)
  | pixel (c : Fin 64) (r : Fin 32)
  | dt
  | st
  | latch
  /-- The model's record of the clock (log 7). -/
  | clock
  /-- The model's record of the random source (log 8). -/
  | rnd
  deriving DecidableEq, Repr

/-- Two states agree on a part. A byte of memory is compared by reading it. -/
def Part.Same : Part → State → State → Prop
  | .reg r, s, t => t.reg r = s.reg r
  | .addr, s, t => t.i = s.i
  | .pc, s, t => t.pc = s.pc
  | .sp, s, t => t.sp = s.sp
  | .slot k, s, t => t.slot k = s.slot k
  | .byte a, s, t => t.mem.read a = s.mem.read a
  | .pixel c r, s, t => t.pixel c r = s.pixel c r
  | .dt, s, t => t.dt = s.dt
  | .st, s, t => t.st = s.st
  | .latch, s, t => t.fault = s.fault
  | .clock, s, t => t.clockLast = s.clockLast ∧ t.clockDraws = s.clockDraws
  | .rnd, s, t => t.rndDraws = s.rndDraws

/-- From `s` to `t` every part is unchanged but those `changed` holds of. -/
def Frame (s t : State) (changed : Part → Prop) : Prop := ∀ p, ¬ changed p → p.Same s t

/-- From `s` to `t` every part is unchanged but the listed ones. -/
def FrameBut (s t : State) (changed : List Part) : Prop := Frame s t (· ∈ changed)

/-! ## The invariant (10_state R14, R17, R20, R21; 41_control_flow R89) -/

/-- What holds at reset and after every step: memory in its canonical form; expiries and clock not negative; `pc` within the values
R14 allows it; every return address held one that a `CALL` can have saved; the loader's kind never in the latch. -/
structure Inv (s : State) : Prop where
  memWf : s.mem.wf = true
  dtNonneg : 0 ≤ s.dt
  stNonneg : 0 ≤ s.st
  clockNonneg : 0 ≤ s.clockLast
  pcBound : s.pc.toNat ≤ 0x10FE
  returnBound : ∀ k : Fin 16, 0 < k.val → k.val ≤ s.sp.val → (s.slot k).toNat ≤ 4096
  latchKind : s.fault ≠ some .loadOversized

/-! ## Which fault a step raises (60_exceptions R130 to R135) -/

/-- The word at `pc`, as a number: first byte high (30_encoding R50). -/
def wordAt (s : State) : Nat := (s.mem.read s.pc.toNat).toNat * 256 + (s.mem.read (s.pc.toNat + 1)).toNat

/-- The kind the table of R130 gives a step of a machine whose latch is clear, if any. -/
def expectedFault (s : State) : Option FaultKind :=
  if 4095 ≤ s.pc.toNat then some .memoryOutOfBounds
  else
    match decodeWord (BitVec.ofNat 16 (wordAt s)) with
    | .error .skipNibble => some .invalidEncoding
    | .error _ => some .unimplementedOpcode
    | .ok .ret => if s.sp.val = 0 then some .stackUnderflow else none
    | .ok (.call _) => if s.sp.val = 15 then some .stackOverflow else none
    | .ok (.drw _ y n) =>
      if (s.reg y).toNat + n.toNat ≤ 31 ∧ s.i.toNat + n.toNat ≤ 4095 then none else some .memoryOutOfBounds
    | .ok _ => none

/-! ## Who writes what (10_state, section 12, column "written by") -/

/-- The register an instruction's `x` field makes its destination. -/
def destReg : Instr → Option Reg
  | .ldImm x _ | .addImm x _ | .rnd x _ | .ldVxDt x => some x
  | .ldReg x _ | .orReg x _ | .andReg x _ | .xorReg x _ | .addReg x _ | .subReg x _ => some x
  | .shr x _ | .subnReg x _ | .shl x _ => some x
  | .cls | .ret | .jp _ | .call _ | .seImm _ _ | .sneImm _ _ | .seReg _ _ | .sneReg _ _ => none
  | .ldI _ | .jpV0 _ | .drw _ _ _ | .ldDtVx _ | .ldStVx _ | .addI _ => none

/-- The instructions that write `VF` as a side effect: exactly six (10_state R11). -/
def writesFlag : Instr → Bool
  | .addReg _ _ | .subReg _ _ | .shr _ _ | .subnReg _ _ | .shl _ _ | .drw _ _ _ => true
  | .cls | .ret | .jp _ | .call _ | .seImm _ _ | .sneImm _ _ | .seReg _ _ | .sneReg _ _ => false
  | .ldImm _ _ | .addImm _ _ | .ldReg _ _ | .orReg _ _ | .andReg _ _ | .xorReg _ _ => false
  | .ldI _ | .jpV0 _ | .rnd _ _ | .ldVxDt _ | .ldDtVx _ | .ldStVx _ | .addI _ => false

/-- The instructions that may write a part, as the table of 10_state, section 12, lists them. No instruction writes memory, and
slot 0 of the call stack is never written. -/
def MayWrite (i : Instr) : Part → Prop
  | .reg r => destReg i = some r ∨ (r = Reg.vf ∧ writesFlag i = true)
  | .addr => (∃ nnn, i = .ldI nnn) ∨ (∃ x, i = .addI x)
  | .pc => i = .ret ∨ (∃ nnn, i = .jp nnn ∨ i = .call nnn ∨ i = .jpV0 nnn) ∨
      (∃ x kk, i = .seImm x kk ∨ i = .sneImm x kk) ∨ (∃ x y, i = .seReg x y ∨ i = .sneReg x y)
  | .sp => i = .ret ∨ (∃ nnn, i = .call nnn)
  | .slot k => k ≠ 0 ∧ (∃ nnn, i = .call nnn)
  | .byte _ => False
  | .pixel _ _ => i = .cls ∨ (∃ x y n, i = .drw x y n)
  | .dt => ∃ x, i = .ldDtVx x
  | .st => ∃ x, i = .ldStVx x
  | .latch => i = .ret ∨ (∃ nnn, i = .call nnn) ∨ (∃ x y n, i = .drw x y n)
  | .clock => ∃ x, i = .ldVxDt x ∨ i = .ldDtVx x ∨ i = .ldStVx x
  | .rnd => ∃ x kk, i = .rnd x kk

/-! ## Sprites (43_display R112, R114) -/

/-- The pixels a sprite of `rows` rows at column `c0` and row `r0` covers, clipped at the right edge. -/
def Covered (c0 r0 rows : Nat) (c : Fin 64) (r : Fin 32) : Prop :=
  c0 ≤ c.val ∧ c.val < c0 + 8 ∧ r0 ≤ r.val ∧ r.val < r0 + rows

/-- The sprite bit that falls on a covered pixel: bit 7 of a row's byte is its leftmost pixel; row `k` is the byte at `base + k`. -/
def spriteBit (m : Memory) (base c0 r0 : Nat) (c : Fin 64) (r : Fin 32) : Bool :=
  (m.read (base + (r.val - r0))).getLsbD (7 - (c.val - c0))

/-- The state `t` shows the first `rows` rows of the sprite at `base`, drawn over the screen of `s` at column `c0`, row `r0`. -/
def Drawn (s t : State) (base c0 r0 rows : Nat) : Prop :=
  ∀ c r, (Covered c0 r0 rows c r → t.pixel c r = spriteBit s.mem base c0 r0 c r) ∧
    (¬ Covered c0 r0 rows c r → t.pixel c r = s.pixel c r)

/-- `Px[c, r]` for integer coordinates (false outside the grid). -/
def pixelAt (scr : Screen) (c r : Nat) : Bool :=
  if h : r < 32 ∧ c < 64 then (scr[r]'h.1)[c]'h.2 else false

/-- `Px[c, r] <- b` for integer coordinates (nothing outside the grid). -/
def setPixelAt (scr : Screen) (c r : Nat) (b : Bool) : Screen :=
  if h : r < 32 ∧ c < 64 then scr.set r ((scr[r]'h.1).set c b h.2) h.1 else scr

/-- The loop over the columns in `draw_row`'s pseudocode: `k` columns still to write, from column `c0 + j` on (R112). -/
def drawColumns (c0 r : Nat) (byte : Byte) : Nat → Nat → Screen → Bool → Screen × Bool
  | 0, _, scr, changed => (scr, changed)
  | k + 1, j, scr, changed =>
    drawColumns c0 r byte k (j + 1) (setPixelAt scr (c0 + j) r (byte.getLsbD (7 - j)))
      (changed || pixelAt scr (c0 + j) r != byte.getLsbD (7 - j))

/-- `draw_row` statement by statement as R112 prints it; `64 - c0` is 0 where the spec's integer is 0 or negative. -/
def drawRowLoop (scr : Screen) (c0 r : Nat) (byte : Byte) : Except FaultKind (Screen × Bool) :=
  if 32 ≤ r then .error .memoryOutOfBounds
  else .ok (drawColumns c0 r byte (min 8 (64 - c0)) 0 scr false)

/-! ## Runs (40_step_cycle R77) -/

/-- The machine is idle at `a`: the latch is clear, `pc` is `a`, and the word there is a jump to `a` itself. -/
def IdleAt (s : State) (a : Addr12) : Prop :=
  s.fault = none ∧ s.pc = addrOperand a ∧ a.toNat ≤ 4094 ∧ wordAt s = 0x1000 + a.toNat

end Sys2Proof.Machine
end

