-- ==== Sys2Proof/Certificates/Slice0/Obligations.lean ====
section
/-! DEFINITION. The statements for the provers, one `def Obligations.<Name> : Prop` each, listed in OBLIGATIONS.json. -/

open Sys2Proof Sys2Proof.Machine

/-! ## Decoding and encoding (30_encoding) -/

/-- Words written out from the encodings of R55 and the vectors T-DEC-1 to T-DEC-6 decode to what they stand for. -/
def Obligations.SampleWordsDecode : Prop :=
  decodeWord 0xD125 = .ok (.drw 1 2 5) ∧ decodeWord 0x00E0 = .ok .cls ∧ decodeWord 0x8AB4 = .ok (.addReg 10 11) ∧
  decodeWord 0xF51E = .ok (.addI 5) ∧ decodeWord 0xB204 = .ok (.jpV0 0x204) ∧ decodeWord 0x81F6 = .ok (.shr 1 15) ∧
  decodeWord 0x2456 = .ok (.call 0x456) ∧ decodeWord 0xF307 = .ok (.ldVxDt 3) ∧ decodeWord 0xC10F = .ok (.rnd 1 0x0F)

/-- Decode of encode is the identity, for every instruction and every operand. -/
def Obligations.DecodeEncode : Prop := ∀ i : Instr, decodeWord (encode i) = .ok i

/-- Encode of decode is the identity on every legal word: each word has one meaning and no bit of it is dropped (R63). -/
def Obligations.EncodeDecode : Prop := ∀ (w : Word) (i : Instr), decodeWord w = .ok i → encode i = w

/-- R55: for every row of the printed map, a word is that instruction exactly when `w AND mask = match`. -/
def Obligations.OpcodeMapRows : Prop :=
  ∀ e ∈ opcodeMap, ∀ w : Word, w &&& e.mask = e.bits ↔ ∃ i, decodeWord w = .ok i ∧ i.mnemonic = e.mnemonic

/-- R56 to R60: which words are illegal and what each kind is; every other word is legal. -/
def Obligations.IllegalWords : Prop :=
  ∀ w : Word,
    ((∃ r, decodeWord w = .error r ∧ rejectKind r = .invalidEncoding) ↔
      (w.toNat / 4096 = 5 ∨ w.toNat / 4096 = 9) ∧ w.toNat % 16 ≠ 0) ∧
    ((∃ r, decodeWord w = .error r ∧ rejectKind r = .unimplementedOpcode) ↔
      (w.toNat / 4096 = 0 ∧ w.toNat ≠ 0x00E0 ∧ w.toNat ≠ 0x00EE) ∨
      (w.toNat / 4096 = 8 ∧ (w.toNat % 16 = 15 ∨ (8 ≤ w.toNat % 16 ∧ w.toNat % 16 ≤ 13))) ∨
      w.toNat / 4096 = 14 ∨
      (w.toNat / 4096 = 15 ∧ w.toNat % 256 ≠ 0x07 ∧ w.toNat % 256 ≠ 0x15 ∧ w.toNat % 256 ≠ 0x18 ∧ w.toNat % 256 ≠ 0x1E)) ∧
    ((∃ i, decodeWord w = .ok i) ∨ (∃ r, decodeWord w = .error r ∧
      (rejectKind r = .invalidEncoding ∨ rejectKind r = .unimplementedOpcode)))

/-! ## The step (40_step_cycle) -/

/-- A step runs the instruction that the bytes at `pc` decode to, with `pc` advanced by 2 first (R70, R72, R73). -/
def Obligations.StepRunsDecoded : Prop :=
  ∀ (s : State) (i : Instr), s.fault = none → s.pc.toNat ≤ 4094 → decodeWord (BitVec.ofNat 16 (wordAt s)) = .ok i →
    step s = exec i (s.setPc (s.pc + 2))

/-- R71, R72: the fetch reads the two bytes at `pc`, high byte first, and advances `pc` by 2 without wrapping; at 4095 and above it
faults, and then the latch is set and nothing else changes. That a faulting read changes nothing (R71) and that the addition does
not wrap (R72) are the spec's own inferences, marked derived there ("from the order read, advance, decode"; "from rule R71"). -/
def Obligations.FetchReadsOrFaults : Prop :=
  ∀ s : State,
    (s.pc.toNat ≤ 4094 → ∃ w t, fetch s = .ok (w, t) ∧ w.toNat = wordAt s ∧ t.pc.toNat = s.pc.toNat + 2 ∧
      FrameBut s t [.pc]) ∧
    (4095 ≤ s.pc.toNat → s.fault = none → ∃ t, step s = .next t ∧ t.fault = some .memoryOutOfBounds ∧
      FrameBut s t [.latch])

/-- R76: an illegal word sets the latch to its kind (`InvalidEncoding` in classes 5 and 9, `UnimplementedOpcode` in the others),
leaves `pc` at its address plus 2 and touches nothing else. -/
def Obligations.IllegalWordStep : Prop :=
  ∀ (s : State) (r : DecodeReject), s.fault = none → s.pc.toNat ≤ 4094 →
    decodeWord (BitVec.ofNat 16 (wordAt s)) = .error r →
    ∃ t, step s = .next t ∧ t.pc.toNat = s.pc.toNat + 2 ∧ FrameBut s t [.pc, .latch] ∧
      t.fault = some (if wordAt s / 4096 = 5 ∨ wordAt s / 4096 = 9 then .invalidEncoding else .unimplementedOpcode)

/-- A faulted machine stays as it is under any number of step requests (R75 c, R138; the spec's own decision D15). -/
def Obligations.FaultedRunStays : Prop :=
  ∀ (s : State) (k : FaultKind) (n : Nat), s.fault = some k → core.run n s = .next s

/-- Every step gives a next state, but for one case: an `Fx1E` whose sum is beyond 16 bits, where the open parameter
`I_ADD_OVERFLOW` is `fault` (R75, R137, R102; log 9). No step is refused. -/
def Obligations.StepCompletesOrIAddOverflow : Prop :=
  ∀ s : State, (∃ t, step s = .next t) ∨
    (step s = .fault .iAddOverflow ∧ s.fault = none ∧ Config.iAddOverflow = .fault ∧
      ∃ x, decodeWord (BitVec.ofNat 16 (wordAt s)) = .ok (.addI x) ∧ 0xFFFF < s.i.toNat + (s.reg x).toNat)

/-- R130: after a step of a machine whose latch is clear the latch holds exactly what the table says, and the loader's kind is
raised exactly by an image longer than 3584 bytes. The loader's clause rests on the spec's decision D20 (log 6), and the bounds of
`Dxyn`, integer sums and the row check first, on its decisions D13 and D14 (log 12). -/
def Obligations.FaultKindsExactly : Prop :=
  (∀ s t : State, s.fault = none → step s = .next t → t.fault = expectedFault s) ∧
  (∀ (image : List Byte) (s : State) (k : FaultKind),
    loadImage image s = .error k ↔ k = .loadOversized ∧ 3584 < image.length)

/-- State at a fault (R139; the spec's own reading, decision D15): registers, `I`, `sp`, stack, memory, timers and the environment's
record are untouched, `pc` is the faulting instruction's address plus 2 (for a fetch fault unchanged), and pixels change only if
the instruction is `Dxyn`. -/
def Obligations.FaultsArePrecise : Prop :=
  ∀ (s t : State) (k : FaultKind), s.fault = none → step s = .next t → t.fault = some k →
    Frame s t (fun p => p = .latch ∨ p = .pc ∨ ∃ c r, p = .pixel c r) ∧
    (4095 ≤ s.pc.toNat → t.pc = s.pc) ∧ (s.pc.toNat ≤ 4094 → t.pc.toNat = s.pc.toNat + 2) ∧
    ((∀ x y n, decodeWord (BitVec.ofNat 16 (wordAt s)) ≠ .ok (.drw x y n)) → ∀ c r, t.pixel c r = s.pixel c r)

/-- R77: from an idle state a step leaves every piece of state unchanged. -/
def Obligations.IdleStaysIdle : Prop :=
  ∀ (s : State) (a : Addr12), IdleAt s a → step s = .next s

/-! ## Control transfer (41_control_flow) -/

/-- R80 (and R134): `RET`. -/
def Obligations.RetEffect : Prop :=
  ∀ s : State,
    (s.sp.val ≠ 0 → ∃ t, exec .ret s = .next t ∧ t.pc = s.slot s.sp ∧ t.sp.val = s.sp.val - 1 ∧ FrameBut s t [.pc, .sp]) ∧
    (s.sp.val = 0 → ∃ t, exec .ret s = .next t ∧ t.fault = some .stackUnderflow ∧ FrameBut s t [.latch])

/-- R81: `JP nnn`. -/
def Obligations.JpEffect : Prop :=
  ∀ (nnn : Addr12) (s : State), ∃ t, exec (.jp nnn) s = .next t ∧ t.pc.toNat = nnn.toNat ∧ FrameBut s t [.pc]

/-- R82 (and R133): `CALL nnn`. -/
def Obligations.CallEffect : Prop :=
  ∀ (nnn : Addr12) (s : State),
    (s.sp.val ≠ 15 → ∃ t, exec (.call nnn) s = .next t ∧ t.sp.val = s.sp.val + 1 ∧ t.slot t.sp = s.pc ∧
      t.pc.toNat = nnn.toNat ∧ FrameBut s t [.pc, .sp, .slot t.sp]) ∧
    (s.sp.val = 15 → ∃ t, exec (.call nnn) s = .next t ∧ t.fault = some .stackOverflow ∧ FrameBut s t [.latch])

/-- R83, R84: the two skips on an immediate. -/
def Obligations.SkipImmEffect : Prop :=
  ∀ (x : Reg) (kk : Byte) (s : State),
    (∃ t, exec (.seImm x kk) s = .next t ∧ t.pc = (if s.reg x = kk then s.pc + 2 else s.pc) ∧ FrameBut s t [.pc]) ∧
    (∃ t, exec (.sneImm x kk) s = .next t ∧ t.pc = (if s.reg x = kk then s.pc else s.pc + 2) ∧ FrameBut s t [.pc])

/-- R85, R86: the two skips on a register, with `x = y` among their operands. -/
def Obligations.SkipRegEffect : Prop :=
  ∀ (x y : Reg) (s : State),
    (∃ t, exec (.seReg x y) s = .next t ∧ t.pc = (if s.reg x = s.reg y then s.pc + 2 else s.pc) ∧ FrameBut s t [.pc]) ∧
    (∃ t, exec (.sneReg x y) s = .next t ∧ t.pc = (if s.reg x = s.reg y then s.pc else s.pc + 2) ∧ FrameBut s t [.pc])

/-- R87: `JP V0,nnn`, the sum not reduced. -/
def Obligations.JpV0Effect : Prop :=
  ∀ (nnn : Addr12) (s : State), ∃ t, exec (.jpV0 nnn) s = .next t ∧ t.pc.toNat = nnn.toNat + (s.reg 0).toNat ∧
    FrameBut s t [.pc]

/-- A `CALL`, anything that keeps `sp` and the slot, then a `RET`: back at the address after the `CALL` with `sp` as before. -/
def Obligations.CallThenRet : Prop :=
  ∀ (nnn : Addr12) (s : State), s.sp.val ≠ 15 → ∃ t, exec (.call nnn) s = .next t ∧
    ∀ u : State, u.sp = t.sp → u.slot u.sp = t.slot t.sp → ∃ r, exec .ret u = .next r ∧ r.pc = s.pc ∧ r.sp = s.sp

/-! ## Load, arithmetic, logic, random (42_load_alu) -/

/-- R90, R92: the two register loads; no flag. -/
def Obligations.LoadRegEffect : Prop :=
  ∀ (x y : Reg) (kk : Byte) (s : State),
    (∃ t, exec (.ldImm x kk) s = .next t ∧ t.reg x = kk ∧ FrameBut s t [.reg x]) ∧
    (∃ t, exec (.ldReg x y) s = .next t ∧ t.reg x = s.reg y ∧ FrameBut s t [.reg x])

/-- R91: `ADD Vx,kk`, modulo 256, `VF` untouched unless `x = 15`. -/
def Obligations.AddImmEffect : Prop :=
  ∀ (x : Reg) (kk : Byte) (s : State), ∃ t, exec (.addImm x kk) s = .next t ∧
    (t.reg x).toNat = ((s.reg x).toNat + kk.toNat) % 256 ∧ FrameBut s t [.reg x]

/-- R93, R94, R95: bit by bit, on all eight bits; no flag. -/
def Obligations.LogicEffect : Prop :=
  ∀ (x y : Reg) (s : State),
    (∃ t, exec (.orReg x y) s = .next t ∧ FrameBut s t [.reg x] ∧
      ∀ j, j < 8 → (t.reg x).getLsbD j = ((s.reg x).getLsbD j || (s.reg y).getLsbD j)) ∧
    (∃ t, exec (.andReg x y) s = .next t ∧ FrameBut s t [.reg x] ∧
      ∀ j, j < 8 → (t.reg x).getLsbD j = ((s.reg x).getLsbD j && (s.reg y).getLsbD j)) ∧
    (∃ t, exec (.xorReg x y) s = .next t ∧ FrameBut s t [.reg x] ∧
      ∀ j, j < 8 → (t.reg x).getLsbD j = xor ((s.reg x).getLsbD j) ((s.reg y).getLsbD j))

/-- `ADD Vx,Vy` (R96); for `x = 15` the flag stands (the spec's own inference, decision D11; log 10). -/
def Obligations.AddRegEffect : Prop :=
  ∀ (x y : Reg) (s : State), ∃ t, exec (.addReg x y) s = .next t ∧
    (x ≠ Reg.vf → (t.reg x).toNat = ((s.reg x).toNat + (s.reg y).toNat) % 256) ∧
    (t.reg Reg.vf).toNat = (if 256 ≤ (s.reg x).toNat + (s.reg y).toNat then 1 else 0) ∧
    FrameBut s t [.reg x, .reg Reg.vf]

/-- `SUB Vx,Vy` (R97); for `x = 15` the flag stands (decision D11; log 10). -/
def Obligations.SubRegEffect : Prop :=
  ∀ (x y : Reg) (s : State), ∃ t, exec (.subReg x y) s = .next t ∧
    (x ≠ Reg.vf → (t.reg x).toNat = ((s.reg x).toNat + 256 - (s.reg y).toNat) % 256) ∧
    (t.reg Reg.vf).toNat = (if (s.reg y).toNat ≤ (s.reg x).toNat then 1 else 0) ∧
    FrameBut s t [.reg x, .reg Reg.vf]

/-- `SUBN Vx,Vy` (R99); for `x = 15` the flag stands (decision D11; log 10). -/
def Obligations.SubnRegEffect : Prop :=
  ∀ (x y : Reg) (s : State), ∃ t, exec (.subnReg x y) s = .next t ∧
    (x ≠ Reg.vf → (t.reg x).toNat = ((s.reg y).toNat + 256 - (s.reg x).toNat) % 256) ∧
    (t.reg Reg.vf).toNat = (if (s.reg x).toNat ≤ (s.reg y).toNat then 1 else 0) ∧
    FrameBut s t [.reg x, .reg Reg.vf]

/-- `SHR Vx` (R98): `y` does not matter; for `x = 15` the shifted value stands (decision D11; log 10). -/
def Obligations.ShrEffect : Prop :=
  ∀ (x y : Reg) (s : State), ∃ t, exec (.shr x y) s = .next t ∧
    (t.reg x).toNat = (s.reg x).toNat / 2 ∧
    (x ≠ Reg.vf → (t.reg Reg.vf).toNat = (s.reg x).toNat % 2) ∧
    FrameBut s t [.reg x, .reg Reg.vf]

/-- `SHL Vx` (R100): `y` does not matter; for `x = 15` the shifted value stands (decision D11; log 10). -/
def Obligations.ShlEffect : Prop :=
  ∀ (x y : Reg) (s : State), ∃ t, exec (.shl x y) s = .next t ∧
    (t.reg x).toNat = (s.reg x).toNat * 2 % 256 ∧
    (x ≠ Reg.vf → (t.reg Reg.vf).toNat = (s.reg x).toNat / 128) ∧
    FrameBut s t [.reg x, .reg Reg.vf]

/-- R101: `LD I,nnn`. -/
def Obligations.LdIEffect : Prop :=
  ∀ (nnn : Addr12) (s : State), ∃ t, exec (.ldI nnn) s = .next t ∧ t.i.toNat = nnn.toNat ∧ FrameBut s t [.addr]

/-- `ADD I,Vx` (R102): the exact sum up to 0xFFFF, no flag. Beyond it R102 leaves the effect to the open parameter `I_ADD_OVERFLOW`
(decision D12), and the clause for it is the model's choice (log 9, DESIGN CHOICE): an opaque parameter with the spec's two candidate
values, the fault being the model's own, outside the latch. Whichever value it has, this holds. -/
def Obligations.AddIEffect : Prop :=
  ∀ (x : Reg) (s : State),
    (s.i.toNat + (s.reg x).toNat ≤ 0xFFFF → ∃ t, exec (.addI x) s = .next t ∧
      t.i.toNat = s.i.toNat + (s.reg x).toNat ∧ FrameBut s t [.addr]) ∧
    (0xFFFF < s.i.toNat + (s.reg x).toNat →
      match Config.iAddOverflow with
      | .wrap => ∃ t, exec (.addI x) s = .next t ∧ t.i.toNat = (s.i.toNat + (s.reg x).toNat) % 65536 ∧ FrameBut s t [.addr]
      | .fault => exec (.addI x) s = .fault .iAddOverflow)

/-- `RND Vx,kk` (R103): one free byte `r` is taken and masked, and no bit outside the mask is ever set. The byte is the model's free
value (decision D19; log 8), so this holds for every value it can have. -/
def Obligations.RndEffect : Prop :=
  ∀ (x : Reg) (kk : Byte) (s : State), ∃ t, exec (.rnd x kk) s = .next t ∧
    t.reg x = Config.rndByte s.rndDraws &&& kk ∧ t.rndDraws = s.rndDraws + 1 ∧ t.reg x &&& ~~~kk = 0 ∧
    FrameBut s t [.reg x, .rnd]

/-! ## Display (43_display) -/

/-- R111, R113: `CLS`. -/
def Obligations.ClsEffect : Prop :=
  ∀ s : State, ∃ t, exec .cls s = .next t ∧ (∀ c r, t.pixel c r = false) ∧ Frame s t (fun p => ∃ c r, p = .pixel c r)

/-- `draw_row` pixel by pixel (R112; the row check first and the integer `64 - c0` are decisions D14 and D25, log 12). -/
def Obligations.DrawRowPixels : Prop :=
  ∀ (scr : Screen) (c0 r0 : Nat) (byte : Byte),
    (r0 < 32 → ∃ scr' changed, drawRow scr c0 r0 byte = .ok (scr', changed) ∧
      (∀ (c : Fin 64) (r : Fin 32), scr'[r.val][c.val] =
        if r.val = r0 ∧ c0 ≤ c.val ∧ c.val < c0 + 8 then byte.getLsbD (7 - (c.val - c0)) else scr[r.val][c.val]) ∧
      (changed = true ↔ ∃ (c : Fin 64) (r : Fin 32), scr'[r.val][c.val] ≠ scr[r.val][c.val])) ∧
    (32 ≤ r0 → drawRow scr c0 r0 byte = .error .memoryOutOfBounds)

/-- The model's `draw_row` is the loop of R112's pseudocode, statement by statement. -/
def Obligations.DrawRowIsTheSpecLoop : Prop :=
  ∀ (scr : Screen) (c0 r : Nat) (byte : Byte), drawRow scr c0 r byte = drawRowLoop scr c0 r byte

/-- `DRW Vx,Vy,n` within bounds (R114; integer sums are decision D13, log 12): it completes, the `n + 1` rows overwrite the covered
pixels, `VF` is 1 exactly if some pixel changed, and nothing else changes. -/
def Obligations.DrwCompletes : Prop :=
  ∀ (x y : Reg) (n : Nibble) (s : State), (s.reg y).toNat + n.toNat ≤ 31 → s.i.toNat + n.toNat ≤ 4095 →
    ∃ t, exec (.drw x y n) s = .next t ∧
      Drawn s t s.i.toNat (s.reg x).toNat (s.reg y).toNat (n.toNat + 1) ∧
      ((∃ c r, t.pixel c r ≠ s.pixel c r) → t.reg Reg.vf = 1) ∧
      ((∀ c r, t.pixel c r = s.pixel c r) → t.reg Reg.vf = 0) ∧
      Frame s t (fun p => p = .reg Reg.vf ∨ ∃ c r, p = .pixel c r)

/-- `DRW` out of bounds (R114, R135, R139 d; decisions D13 to D15, logs 12 and 13): the rows before the first that violates a bound
are drawn, the latch is set, and nothing else changes, `VF` included. -/
def Obligations.DrwOutOfBounds : Prop :=
  ∀ (x y : Reg) (n : Nibble) (s : State), 31 < (s.reg y).toNat + n.toNat ∨ 4095 < s.i.toNat + n.toNat →
    ∃ t, exec (.drw x y n) s = .next t ∧ t.fault = some .memoryOutOfBounds ∧
      Drawn s t s.i.toNat (s.reg x).toNat (s.reg y).toNat (min (32 - (s.reg y).toNat) (4096 - s.i.toNat)) ∧
      Frame s t (fun p => p = .latch ∨ ∃ c r, p = .pixel c r)

/-- Drawing the same sprite again at the same place changes no pixel and leaves `VF` 0 (R112, R114: overwrite, not XOR). -/
def Obligations.DrwAgainChangesNothing : Prop :=
  ∀ (x y : Reg) (n : Nibble) (s t : State), (s.reg y).toNat + n.toNat ≤ 31 → s.i.toNat + n.toNat ≤ 4095 →
    exec (.drw x y n) s = .next t → t.reg x = s.reg x → t.reg y = s.reg y →
    ∃ u, exec (.drw x y n) t = .next u ∧ (∀ c r, u.pixel c r = t.pixel c r) ∧ u.reg Reg.vf = 0

/-! ## Timers (44_timers) -/

/-- `remaining_ticks` (R122), by the spec's formula; that a tick is exactly 50/3 ms and the arithmetic exact is the spec's decision
D17 (log 14, DESIGN CHOICE, unsafe by at most one tick). -/
def Obligations.RemainingTicksFormula : Prop :=
  ∀ expiry now : Rat,
    (expiry ≤ now → (remainingTicks expiry now).toNat = 0) ∧
    (now < expiry → ((remainingTicks expiry now).toNat : Int) = min ⌊(expiry - now) * 3 / 50⌋ 255)

/-- `LD Vx,DT` (R124): one clock sample, not less than the last one (the free value of log 7), and the count it gives. -/
def Obligations.LdVxDtEffect : Prop :=
  ∀ (x : Reg) (s : State), ∃ t, exec (.ldVxDt x) s = .next t ∧ s.clockLast ≤ t.clockLast ∧
    t.clockDraws = s.clockDraws + 1 ∧ t.reg x = remainingTicks s.dt t.clockLast ∧ FrameBut s t [.reg x, .clock]

/-- `LD DT,Vx` and `LD ST,Vx` (R125, R126, by R121): one clock sample, the exact expiry (a tick of exactly 50/3 ms: decision D17,
log 14), and the other timer untouched. -/
def Obligations.SetTimerEffect : Prop :=
  ∀ (x : Reg) (s : State),
    (∃ t, exec (.ldDtVx x) s = .next t ∧ s.clockLast ≤ t.clockLast ∧ t.clockDraws = s.clockDraws + 1 ∧
      t.dt = t.clockLast + ((s.reg x).toNat : Rat) * 50 / 3 ∧ FrameBut s t [.dt, .clock]) ∧
    (∃ t, exec (.ldStVx x) s = .next t ∧ s.clockLast ≤ t.clockLast ∧ t.clockDraws = s.clockDraws + 1 ∧
      t.st = t.clockLast + ((s.reg x).toNat : Rat) * 50 / 3 ∧ FrameBut s t [.st, .clock])

/-- R127 a, the spec's own inference: the count never rises between two reads without a set (exact ticks: decision D17, log 14). -/
def Obligations.RemainingTicksFalls : Prop :=
  ∀ expiry now later : Rat, now ≤ later → (remainingTicks expiry later).toNat ≤ (remainingTicks expiry now).toNat

/-- R127 b to e, the spec's own inferences: after a set of `a` ticks a read gives at most `a`; exactly `a` if no time passed; 0 once
`a` ticks have passed; `a` or `a - 1` within one tick (exact ticks: decision D17, log 14). -/
def Obligations.SetThenRemaining : Prop :=
  ∀ (a : Byte) (now later : Rat), now ≤ later →
    (remainingTicks (timerExpiry now a) later).toNat ≤ a.toNat ∧
    (later = now → remainingTicks (timerExpiry now a) later = a) ∧
    (now + (a.toNat : Rat) * 50 / 3 ≤ later → remainingTicks (timerExpiry now a) later = 0) ∧
    (later < now + 50 / 3 → a.toNat ≤ (remainingTicks (timerExpiry now a) later).toNat + 1)

/-- An `Fx07` in any later state that still has the expiry an `Fx15` set, and no earlier clock, returns at most what was set. -/
def Obligations.DelaySetThenRead : Prop :=
  ∀ (x y : Reg) (s : State), ∃ t, exec (.ldDtVx x) s = .next t ∧
    ∀ u : State, u.dt = t.dt → t.clockLast ≤ u.clockLast →
      ∃ r, exec (.ldVxDt y) u = .next r ∧ (r.reg y).toNat ≤ (s.reg x).toNat

/-- R123: along a run the clock samples never decrease (the samples are the free values of log 7), and their number never falls. -/
def Obligations.ClockNeverDecreases : Prop :=
  ∀ (n : Nat) (s t : State), core.run n s = .next t → s.clockLast ≤ t.clockLast ∧ s.clockDraws ≤ t.clockDraws

/-! ## The snapshot (10_state R23, 44_timers R123) -/

/-- A snapshot, at any state, shows every register, the stack, the screen and the latch as they stand and each timer's
`remaining_ticks()` at a clock sample of its own, neither less than the last sample (decisions D17, D18, D27; log 15). It changes
nothing but the model's record of the clock, which then holds the later of the two samples and counts both. -/
def Obligations.SnapshotReadsOnly : Prop :=
  ∀ s : State, FrameBut s (snapshot s).2 [.clock] ∧ (snapshot s).2.clockDraws = s.clockDraws + 2 ∧
    (∀ r : Reg, (snapshot s).1.v[r.val] = s.reg r) ∧ (snapshot s).1.i = s.i ∧ (snapshot s).1.pc = s.pc ∧
    (snapshot s).1.sp = s.sp ∧ (∀ k : Fin 16, (snapshot s).1.stack[k.val] = s.slot k) ∧
    (∀ (c : Fin 64) (r : Fin 32), (snapshot s).1.screen[r.val][c.val] = s.pixel c r) ∧ (snapshot s).1.fault = s.fault ∧
    ∃ nowDt nowSt : Rat, s.clockLast ≤ nowDt ∧ s.clockLast ≤ nowSt ∧ (snapshot s).2.clockLast = max nowDt nowSt ∧
      (snapshot s).1.dtTicks = remainingTicks s.dt nowDt ∧ (snapshot s).1.stTicks = remainingTicks s.st nowSt

/-- A snapshot keeps the machine's invariant: its samples are not negative (R123; decision D17). -/
def Obligations.SnapshotKeepsInv : Prop := ∀ s : State, Inv s → Inv (snapshot s).2

/-- A timer that had expired at the last clock sample shows 0 ticks in a snapshot (R122, R123; decisions D17, D18), and so do both
timers right after reset and load (R20; decision D7, log 4), whatever the clock answers. -/
def Obligations.SnapshotOfExpiredTimers : Prop :=
  (∀ s : State, (s.dt ≤ s.clockLast → (snapshot s).1.dtTicks = 0) ∧ (s.st ≤ s.clockLast → (snapshot s).1.stTicks = 0)) ∧
  (∀ (image : List Byte) (s : State), boot image = .ok s → (snapshot s).1.dtTicks = 0 ∧ (snapshot s).1.stTicks = 0)

/-- After a snapshot, in any state that still has a timer's expiry and no earlier clock, neither another snapshot nor, for `DT`, an
`Fx07` shows more ticks than the snapshot did (R127 a, the spec's own inference; decisions D17, D18). -/
def Obligations.SnapshotCountsFall : Prop :=
  ∀ s u : State, (snapshot s).2.clockLast ≤ u.clockLast →
    (u.dt = s.dt → (snapshot u).1.dtTicks.toNat ≤ (snapshot s).1.dtTicks.toNat ∧
      ∀ x : Reg, ∃ t, exec (.ldVxDt x) u = .next t ∧ (t.reg x).toNat ≤ (snapshot s).1.dtTicks.toNat) ∧
    (u.st = s.st → (snapshot u).1.stTicks.toNat ≤ (snapshot s).1.stTicks.toNat)

/-! ## Memory and boot (20_memory, 70_reset_and_hazards) -/

/-- R32: `MemRead`, for both sizes; the address is never reduced. -/
def Obligations.MemReadBounds : Prop :=
  ∀ (m : Memory) (addr : Nat),
    (addr ≤ 4095 → m.readByte addr = .ok (m.read addr)) ∧
    (4096 ≤ addr → m.readByte addr = .error .memoryOutOfBounds) ∧
    (addr ≤ 4094 → ∃ w, m.readWord addr = .ok w ∧ w.toNat = (m.read addr).toNat * 256 + (m.read (addr + 1)).toNat) ∧
    (4095 ≤ addr → m.readWord addr = .error .memoryOutOfBounds)

/-- `MemWrite` at the load port (R33): inside the capacity the byte reads back, every other address reads as before and the memory
stays in the model's canonical form (log 3); outside it the write is refused. -/
def Obligations.MemWriteBounds : Prop :=
  ∀ (m : Memory) (addr : Nat) (b : Byte),
    (m.wf = true → addr ≤ 4095 → ∃ m', m.writeByte addr b = .ok m' ∧ m'.wf = true ∧ m'.read addr = b ∧
      ∀ a, a ≠ addr → m'.read a = m.read a) ∧
    (4096 ≤ addr → m.writeByte addr b = .error .memoryOutOfBounds)

/-- Reset (R150): `pc` 512 and the glyph table at 0 are the source's; the zeros, the clear screen, the expired timers and the clear
latch are the spec's own decisions D2 to D8 and D15 (logs 1, 3, 4, 13). The stack slots, left unspecified, are not named. -/
def Obligations.ResetState : Prop :=
  State.reset.pc.toNat = 512 ∧ (∀ a : Fin 80, State.reset.mem.read a.val = Config.glyphTable a) ∧
  (∀ a, 80 ≤ a → State.reset.mem.read a = 0) ∧ (∀ x, State.reset.reg x = 0) ∧ State.reset.i = 0 ∧ State.reset.sp = 0 ∧
  (∀ c r, State.reset.pixel c r = false) ∧ State.reset.fault = none ∧
  (∀ now : Rat, 0 ≤ now → remainingTicks State.reset.dt now = 0 ∧ remainingTicks State.reset.st now = 0)

/-- The load (R45, R152; the refusal of an oversized image is decision D20, log 6): an image of at most 3584 bytes lies at 512
upward, every other byte of memory and everything else is as reset left it; a longer one starts no machine. -/
def Obligations.BootPlacesTheImage : Prop :=
  ∀ image : List Byte,
    (image.length ≤ 3584 → ∃ s, boot image = .ok s ∧ Inv s ∧
      (∀ (k : Nat) (h : k < image.length), s.mem.read (512 + k) = image[k]) ∧
      Frame State.reset s (fun p => ∃ k, k < image.length ∧ p = .byte (512 + k))) ∧
    (3584 < image.length → boot image = .error .loadOversized)

/-- R39: no step writes memory: along a run every address reads as it did. -/
def Obligations.RunKeepsMemory : Prop :=
  ∀ (n : Nat) (s t : State), core.run n s = .next t → t.mem = s.mem ∧ ∀ a, t.mem.read a = s.mem.read a

/-- R43: `glyph_address` gives each digit the first of its five bytes in the table, and any other input the table's base
(decision D23; log 16). -/
def Obligations.GlyphAddressInTable : Prop :=
  ∀ digit : Nat,
    (∀ (_ : digit ≤ 15) (r : Fin 5) (h : digit * 5 + r.val < 80),
      State.reset.mem.read (glyphAddress digit + r.val) = Config.glyphTable ⟨digit * 5 + r.val, h⟩) ∧
    (15 < digit → glyphAddress digit = 0)

/-! ## The whole machine -/

/-- The invariant holds at reset. -/
def Obligations.ResetInv : Prop := Inv State.reset

/-- Every step keeps the invariant, from every state that has it. -/
def Obligations.StepKeepsInv : Prop := ∀ s t : State, Inv s → step s = .next t → Inv t

/-- Who writes what (10_state R11, R12, R13, R15, R16, R18, R19, R20 and the table of section 12): whatever instruction is executed,
a part it is not listed for keeps its value. -/
def Obligations.WrittenOnlyByItsWriters : Prop :=
  ∀ (i : Instr) (s t : State), exec i s = .next t → Frame s t (MayWrite i)

/-- No instruction reads `ST` (R20, R24 b): two states that differ in `ST.expiry` alone step to states that differ in it alone. -/
def Obligations.SoundTimerIsNotRead : Prop :=
  ∀ (s t : State) (e : Rat), step s = .next t → ∃ e', step (s.setSt e) = .next (t.setSt e')

/-- No instruction reads a stack slot outside 1 to `sp` (R16, R17): what stands in one changes nothing else of a step. -/
def Obligations.UnusedSlotsAreNotRead : Prop :=
  ∀ (s t : State) (k : Fin 16) (w : Word), k.val = 0 ∨ s.sp.val < k.val → step s = .next t →
    ∃ w', step (s.setSlot k w) = .next (t.setSlot k w')
end

