-- ==== Sys2Proof/Laws/Encoding.lean ====
section
/-! SUPPORT. The fields of an encoded word: each field of each format is read back as it was written, and a word is put together
again from its fields (30_encoding R51, R52). -/

namespace Sys2Proof

/-- A register index read back from its four bits. -/
@[simp] theorem regBits_toFin (x : Reg) : (regBits x).toFin = x := rfl

theorem regBits_xOf (w : Word) : regBits (xOf w) = w.extractLsb' 8 4 := rfl

theorem regBits_yOf (w : Word) : regBits (yOf w) = w.extractLsb' 4 4 := rfl

@[simp] theorem classOf_encNnn (c : BitVec 4) (nnn : Addr12) : classOf (encNnn c nnn) = c := by
  ext j hj; interval_cases j <;> simp [classOf, encNnn, BitVec.getLsbD_eq_getElem]

@[simp] theorem nnnOf_encNnn (c : BitVec 4) (nnn : Addr12) : nnnOf (encNnn c nnn) = nnn := by
  ext j hj; interval_cases j <;> simp [nnnOf, encNnn, BitVec.getLsbD_eq_getElem]

@[simp] theorem classOf_encXkk (c : BitVec 4) (x : Reg) (kk : Byte) : classOf (encXkk c x kk) = c := by
  ext j hj; interval_cases j <;> simp [classOf, encXkk, BitVec.getLsbD_eq_getElem]

@[simp] theorem xOf_encXkk (c : BitVec 4) (x : Reg) (kk : Byte) : xOf (encXkk c x kk) = x := by
  have h : (encXkk c x kk).extractLsb' 8 4 = regBits x := by
    ext j hj; interval_cases j <;> simp [encXkk, BitVec.getLsbD_eq_getElem]
  rw [xOf, h, regBits_toFin]

@[simp] theorem kkOf_encXkk (c : BitVec 4) (x : Reg) (kk : Byte) : kkOf (encXkk c x kk) = kk := by
  ext j hj; interval_cases j <;> simp [kkOf, encXkk, BitVec.getLsbD_eq_getElem]

@[simp] theorem classOf_encXyn (c : BitVec 4) (x y : Reg) (n : Nibble) : classOf (encXyn c x y n) = c := by
  ext j hj; interval_cases j <;> simp [classOf, encXyn, BitVec.getLsbD_eq_getElem]

@[simp] theorem xOf_encXyn (c : BitVec 4) (x y : Reg) (n : Nibble) : xOf (encXyn c x y n) = x := by
  have h : (encXyn c x y n).extractLsb' 8 4 = regBits x := by
    ext j hj; interval_cases j <;> simp [encXyn, BitVec.getLsbD_eq_getElem]
  rw [xOf, h, regBits_toFin]

@[simp] theorem yOf_encXyn (c : BitVec 4) (x y : Reg) (n : Nibble) : yOf (encXyn c x y n) = y := by
  have h : (encXyn c x y n).extractLsb' 4 4 = regBits y := by
    ext j hj; interval_cases j <;> simp [encXyn, BitVec.getLsbD_eq_getElem]
  rw [yOf, h, regBits_toFin]

@[simp] theorem nOf_encXyn (c : BitVec 4) (x y : Reg) (n : Nibble) : nOf (encXyn c x y n) = n := by
  ext j hj; interval_cases j <;> simp [nOf, encXyn, BitVec.getLsbD_eq_getElem]

/-- Format `NNN`: a word is its class and its address field. -/
theorem encNnn_fields (w : Word) : encNnn (classOf w) (nnnOf w) = w := by
  ext j hj; interval_cases j <;> simp [classOf, nnnOf, encNnn, BitVec.getLsbD_eq_getElem]

/-- Formats `XKK` and `XSUB`: a word is its class, its register field and its low byte. -/
theorem encXkk_fields (w : Word) : encXkk (classOf w) (xOf w) (kkOf w) = w := by
  ext j hj; interval_cases j <;> simp [classOf, kkOf, encXkk, regBits_xOf, BitVec.getLsbD_eq_getElem]

/-- Formats `XY` and `XYN`: a word is its class, its two register fields and its low digit. -/
theorem encXyn_fields (w : Word) : encXyn (classOf w) (xOf w) (yOf w) (nOf w) = w := by
  ext j hj; interval_cases j <;> simp [classOf, nOf, encXyn, regBits_xOf, regBits_yOf, BitVec.getLsbD_eq_getElem]

/-! ## The fields as numbers (00_scope R8) -/

theorem classOf_toNat (w : Word) : (classOf w).toNat = w.toNat / 4096 := by
  have := w.isLt
  simp only [classOf, BitVec.extractLsb'_toNat, Nat.shiftRight_eq_div_pow]
  omega

theorem nOf_toNat (w : Word) : (nOf w).toNat = w.toNat % 16 := by
  simp [nOf, BitVec.extractLsb'_toNat]

theorem kkOf_toNat (w : Word) : (kkOf w).toNat = w.toNat % 256 := by
  simp [kkOf, BitVec.extractLsb'_toNat]

theorem nnnOf_toNat (w : Word) : (nnnOf w).toNat = w.toNat % 4096 := by
  simp [nnnOf, BitVec.extractLsb'_toNat]

/-- Big-endian: the first byte times 256 plus the second (30_encoding R50). -/
theorem wordOfBytes_toNat (hi lo : Byte) : (wordOfBytes hi lo).toNat = hi.toNat * 256 + lo.toNat := by
  have h1 := hi.isLt
  have h2 := lo.isLt
  have h : (hi.setWidth 16 <<< 8) &&& (lo.setWidth 16 : Word) = 0 := by
    ext j hj; interval_cases j <;> simp
  rw [wordOfBytes, ← BitVec.add_eq_or_of_and_eq_zero _ _ h]
  simp only [BitVec.toNat_add, BitVec.toNat_shiftLeft, BitVec.toNat_setWidth, Nat.shiftLeft_eq]
  omega

end Sys2Proof
end

