-- ==== Sys2Proof/Laws/Memory.lean ====
section
/-! SUPPORT. Memory: a write is read back, leaves every other address alone and keeps the canonical form; so does the load. -/

namespace Sys2Proof.Machine

/-- The canonical form, unfolded once: the first cell's bounds and value, and the rest from its successor up. -/
theorem Memory.wfFrom_cons {lo a : Nat} {v : Byte} {m : Memory} :
    Memory.wfFrom lo ((a, v) :: m) = true ↔
      lo ≤ a ∧ a < 4096 ∧ v ≠ Memory.resetByte a ∧ Memory.wfFrom (a + 1) m = true := by
  simp [Memory.wfFrom, and_assoc]

/-- A canonical form from `lo` up is one from any lower address up. -/
theorem Memory.wfFrom_mono {lo lo' : Nat} (h : lo' ≤ lo) : ∀ {m : Memory},
    Memory.wfFrom lo m = true → Memory.wfFrom lo' m = true
  | [], _ => rfl
  | (_, _) :: _, hm => by
    rw [Memory.wfFrom_cons] at hm ⊢
    exact ⟨h.trans hm.1, hm.2⟩

/-- Below its first address a canonical memory reads as reset left it. -/
theorem Memory.read_below {lo a : Nat} (h : a < lo) : ∀ {m : Memory},
    Memory.wfFrom lo m = true → m.read a = Memory.resetByte a
  | [], _ => rfl
  | (b, v) :: m, hm => by
    rw [Memory.wfFrom_cons] at hm
    have hb : a ≠ b := by omega
    rw [Memory.read, if_neg hb]
    exact Memory.read_below (by omega) hm.2.2.2

/-- Putting a cell in front of higher ones: it reads back, the others are as they were. -/
theorem Memory.cons_read {m : Memory} {a : Nat} {v : Byte} (hm : Memory.wfFrom (a + 1) m = true) (c : Nat) :
    (Memory.cons m a v).read c = if c = a then v else m.read c := by
  unfold Memory.cons
  by_cases hv : v = Memory.resetByte a
  · rw [if_pos hv]
    split
    · subst c; rw [hv]; exact Memory.read_below (Nat.lt_succ_self a) hm
    · rfl
  · rw [if_neg hv]; rfl

/-- Putting a cell in front of higher ones keeps the canonical form. -/
theorem Memory.cons_wfFrom {m : Memory} {lo a : Nat} {v : Byte} (hm : Memory.wfFrom (a + 1) m = true) (hlo : lo ≤ a)
    (ha : a < 4096) : Memory.wfFrom lo (Memory.cons m a v) = true := by
  unfold Memory.cons
  split
  · exact Memory.wfFrom_mono (by omega) hm
  · rename_i hv
    exact Memory.wfFrom_cons.mpr ⟨hlo, ha, hv, hm⟩

theorem Memory.write_wfFrom {lo a : Nat} {v : Byte} (hlo : lo ≤ a) (ha : a < 4096) : ∀ {m : Memory},
    Memory.wfFrom lo m = true → Memory.wfFrom lo (m.write a v) = true
  | [], _ => Memory.cons_wfFrom rfl hlo ha
  | (b, w) :: m, hm => by
    have hm' := Memory.wfFrom_cons.mp hm
    unfold Memory.write
    split
    · rename_i h
      exact Memory.cons_wfFrom (Memory.wfFrom_cons.mpr ⟨h, hm'.2⟩) hlo ha
    · split
      · rename_i h; subst h
        exact Memory.cons_wfFrom hm'.2.2.2 hlo ha
      · exact Memory.wfFrom_cons.mpr ⟨hm'.1, hm'.2.1, hm'.2.2.1, Memory.write_wfFrom (by omega) ha hm'.2.2.2⟩

/-- A write inside the capacity keeps the canonical form. -/
theorem Memory.write_wf {m : Memory} {a : Nat} {v : Byte} (ha : a < 4096) (hm : m.wf = true) : (m.write a v).wf = true :=
  Memory.write_wfFrom (Nat.zero_le a) ha hm

theorem Memory.write_readFrom {lo a : Nat} {v : Byte} (c : Nat) : ∀ {m : Memory},
    Memory.wfFrom lo m = true → (m.write a v).read c = if c = a then v else m.read c
  | [], _ => Memory.cons_read rfl c
  | (b, w) :: m, hm => by
    have hm' := Memory.wfFrom_cons.mp hm
    unfold Memory.write
    split
    · rename_i h
      exact Memory.cons_read (Memory.wfFrom_cons.mpr ⟨h, hm'.2⟩) c
    · split
      · rename_i h; subst h
        rw [Memory.cons_read hm'.2.2.2 c]
        split
        · rfl
        · rename_i hc; rw [Memory.read, if_neg hc]
      · rw [Memory.read, Memory.read, Memory.write_readFrom c hm'.2.2.2]
        by_cases hcb : c = b
        · rw [if_pos hcb, if_neg (by omega), if_pos hcb]
        · rw [if_neg hcb, if_neg hcb]

/-- Reading after a write: the value written at the address written, every other address as before. -/
theorem Memory.write_read {m : Memory} (hm : m.wf = true) (a : Nat) (v : Byte) (c : Nat) :
    (m.write a v).read c = if c = a then v else m.read c := Memory.write_readFrom c hm

/-- The memory after reset is canonical. -/
theorem Memory.reset_wf : State.reset.mem.wf = true := rfl

/-- The bounds-checked write keeps the canonical form. -/
theorem Memory.writeByte_wf {m m' : Memory} {a : Nat} {v : Byte} (hm : m.wf = true) (h : m.writeByte a v = .ok m') :
    m'.wf = true := by
  unfold Memory.writeByte at h
  split at h
  · rename_i ha; cases h; exact Memory.write_wf ha hm
  · cases h

/-- Copying bytes that fit keeps the canonical form. -/
theorem Memory.copy_wf {bs : List Byte} : ∀ {m : Memory} {a : Nat}, a + bs.length ≤ 4096 → m.wf = true →
    (Memory.copy m a bs).wf = true := by
  induction bs with
  | nil => intro m a _ hm; exact hm
  | cons b bs ih =>
    intro m a h hm
    simp only [List.length_cons] at h
    exact ih (by omega) (Memory.write_wf (by omega) hm)

/-- Reading after a copy: the bytes copied where they were put, every other address as before. -/
theorem Memory.copy_read {bs : List Byte} : ∀ {m : Memory} {a : Nat}, a + bs.length ≤ 4096 → m.wf = true → ∀ c,
    (Memory.copy m a bs).read c =
      if h : a ≤ c ∧ c < a + bs.length then bs[c - a]'(by omega) else m.read c := by
  induction bs with
  | nil => intro m a _ _ c; rw [dif_neg (by simp)]; rfl
  | cons b bs ih =>
    intro m a h hm c
    simp only [List.length_cons] at h ⊢
    rw [Memory.copy, ih (by omega) (Memory.write_wf (by omega) hm), Memory.write_read hm]
    by_cases hca : c = a
    · subst hca
      simp
    · by_cases hin : a + 1 ≤ c ∧ c < a + 1 + bs.length
      · rw [dif_pos hin, dif_pos (by omega)]
        have : c - a = c - (a + 1) + 1 := by omega
        simp [this]
      · rw [dif_neg hin, dif_neg (by omega), if_neg hca]

end Sys2Proof.Machine
end

