-- ==== Sys2Proof/Laws/State.lean ====
section
/-! SUPPORT. What each writer of a field does to each field, and to the views of the three indexed fields. -/

namespace Sys2Proof.Machine

/-! ## setReg -/

@[simp] theorem State.setReg_v (s : State) (x : Reg) (b : Byte) : (s.setReg x b).v = s.v.set x.val b x.isLt := rfl
@[simp] theorem State.setReg_i (s : State) (x : Reg) (b : Byte) : (s.setReg x b).i = s.i := rfl
@[simp] theorem State.setReg_pc (s : State) (x : Reg) (b : Byte) : (s.setReg x b).pc = s.pc := rfl
@[simp] theorem State.setReg_sp (s : State) (x : Reg) (b : Byte) : (s.setReg x b).sp = s.sp := rfl
@[simp] theorem State.setReg_stack (s : State) (x : Reg) (b : Byte) : (s.setReg x b).stack = s.stack := rfl
@[simp] theorem State.setReg_mem (s : State) (x : Reg) (b : Byte) : (s.setReg x b).mem = s.mem := rfl
@[simp] theorem State.setReg_screen (s : State) (x : Reg) (b : Byte) : (s.setReg x b).screen = s.screen := rfl
@[simp] theorem State.setReg_dt (s : State) (x : Reg) (b : Byte) : (s.setReg x b).dt = s.dt := rfl
@[simp] theorem State.setReg_st (s : State) (x : Reg) (b : Byte) : (s.setReg x b).st = s.st := rfl
@[simp] theorem State.setReg_fault (s : State) (x : Reg) (b : Byte) : (s.setReg x b).fault = s.fault := rfl
@[simp] theorem State.setReg_clockLast (s : State) (x : Reg) (b : Byte) : (s.setReg x b).clockLast = s.clockLast := rfl
@[simp] theorem State.setReg_clockDraws (s : State) (x : Reg) (b : Byte) : (s.setReg x b).clockDraws = s.clockDraws := rfl
@[simp] theorem State.setReg_rndDraws (s : State) (x : Reg) (b : Byte) : (s.setReg x b).rndDraws = s.rndDraws := rfl
@[simp] theorem State.setReg_slot (s : State) (x : Reg) (b : Byte) (j : Fin 16) : (s.setReg x b).slot j = s.slot j := rfl
@[simp] theorem State.setReg_pixel (s : State) (x : Reg) (b : Byte) (c : Fin 64) (r : Fin 32) : (s.setReg x b).pixel c r = s.pixel c r := rfl

/-! ## setI -/

@[simp] theorem State.setI_v (s : State) (w : Word) : (s.setI w).v = s.v := rfl
@[simp] theorem State.setI_i (s : State) (w : Word) : (s.setI w).i = w := rfl
@[simp] theorem State.setI_pc (s : State) (w : Word) : (s.setI w).pc = s.pc := rfl
@[simp] theorem State.setI_sp (s : State) (w : Word) : (s.setI w).sp = s.sp := rfl
@[simp] theorem State.setI_stack (s : State) (w : Word) : (s.setI w).stack = s.stack := rfl
@[simp] theorem State.setI_mem (s : State) (w : Word) : (s.setI w).mem = s.mem := rfl
@[simp] theorem State.setI_screen (s : State) (w : Word) : (s.setI w).screen = s.screen := rfl
@[simp] theorem State.setI_dt (s : State) (w : Word) : (s.setI w).dt = s.dt := rfl
@[simp] theorem State.setI_st (s : State) (w : Word) : (s.setI w).st = s.st := rfl
@[simp] theorem State.setI_fault (s : State) (w : Word) : (s.setI w).fault = s.fault := rfl
@[simp] theorem State.setI_clockLast (s : State) (w : Word) : (s.setI w).clockLast = s.clockLast := rfl
@[simp] theorem State.setI_clockDraws (s : State) (w : Word) : (s.setI w).clockDraws = s.clockDraws := rfl
@[simp] theorem State.setI_rndDraws (s : State) (w : Word) : (s.setI w).rndDraws = s.rndDraws := rfl
@[simp] theorem State.setI_reg (s : State) (w : Word) (r : Reg) : (s.setI w).reg r = s.reg r := rfl
@[simp] theorem State.setI_slot (s : State) (w : Word) (j : Fin 16) : (s.setI w).slot j = s.slot j := rfl
@[simp] theorem State.setI_pixel (s : State) (w : Word) (c : Fin 64) (r : Fin 32) : (s.setI w).pixel c r = s.pixel c r := rfl

/-! ## setPc -/

@[simp] theorem State.setPc_v (s : State) (w : Word) : (s.setPc w).v = s.v := rfl
@[simp] theorem State.setPc_i (s : State) (w : Word) : (s.setPc w).i = s.i := rfl
@[simp] theorem State.setPc_pc (s : State) (w : Word) : (s.setPc w).pc = w := rfl
@[simp] theorem State.setPc_sp (s : State) (w : Word) : (s.setPc w).sp = s.sp := rfl
@[simp] theorem State.setPc_stack (s : State) (w : Word) : (s.setPc w).stack = s.stack := rfl
@[simp] theorem State.setPc_mem (s : State) (w : Word) : (s.setPc w).mem = s.mem := rfl
@[simp] theorem State.setPc_screen (s : State) (w : Word) : (s.setPc w).screen = s.screen := rfl
@[simp] theorem State.setPc_dt (s : State) (w : Word) : (s.setPc w).dt = s.dt := rfl
@[simp] theorem State.setPc_st (s : State) (w : Word) : (s.setPc w).st = s.st := rfl
@[simp] theorem State.setPc_fault (s : State) (w : Word) : (s.setPc w).fault = s.fault := rfl
@[simp] theorem State.setPc_clockLast (s : State) (w : Word) : (s.setPc w).clockLast = s.clockLast := rfl
@[simp] theorem State.setPc_clockDraws (s : State) (w : Word) : (s.setPc w).clockDraws = s.clockDraws := rfl
@[simp] theorem State.setPc_rndDraws (s : State) (w : Word) : (s.setPc w).rndDraws = s.rndDraws := rfl
@[simp] theorem State.setPc_reg (s : State) (w : Word) (r : Reg) : (s.setPc w).reg r = s.reg r := rfl
@[simp] theorem State.setPc_slot (s : State) (w : Word) (j : Fin 16) : (s.setPc w).slot j = s.slot j := rfl
@[simp] theorem State.setPc_pixel (s : State) (w : Word) (c : Fin 64) (r : Fin 32) : (s.setPc w).pixel c r = s.pixel c r := rfl

/-! ## setSp -/

@[simp] theorem State.setSp_v (s : State) (k : Fin 16) : (s.setSp k).v = s.v := rfl
@[simp] theorem State.setSp_i (s : State) (k : Fin 16) : (s.setSp k).i = s.i := rfl
@[simp] theorem State.setSp_pc (s : State) (k : Fin 16) : (s.setSp k).pc = s.pc := rfl
@[simp] theorem State.setSp_sp (s : State) (k : Fin 16) : (s.setSp k).sp = k := rfl
@[simp] theorem State.setSp_stack (s : State) (k : Fin 16) : (s.setSp k).stack = s.stack := rfl
@[simp] theorem State.setSp_mem (s : State) (k : Fin 16) : (s.setSp k).mem = s.mem := rfl
@[simp] theorem State.setSp_screen (s : State) (k : Fin 16) : (s.setSp k).screen = s.screen := rfl
@[simp] theorem State.setSp_dt (s : State) (k : Fin 16) : (s.setSp k).dt = s.dt := rfl
@[simp] theorem State.setSp_st (s : State) (k : Fin 16) : (s.setSp k).st = s.st := rfl
@[simp] theorem State.setSp_fault (s : State) (k : Fin 16) : (s.setSp k).fault = s.fault := rfl
@[simp] theorem State.setSp_clockLast (s : State) (k : Fin 16) : (s.setSp k).clockLast = s.clockLast := rfl
@[simp] theorem State.setSp_clockDraws (s : State) (k : Fin 16) : (s.setSp k).clockDraws = s.clockDraws := rfl
@[simp] theorem State.setSp_rndDraws (s : State) (k : Fin 16) : (s.setSp k).rndDraws = s.rndDraws := rfl
@[simp] theorem State.setSp_reg (s : State) (k : Fin 16) (r : Reg) : (s.setSp k).reg r = s.reg r := rfl
@[simp] theorem State.setSp_slot (s : State) (k : Fin 16) (j : Fin 16) : (s.setSp k).slot j = s.slot j := rfl
@[simp] theorem State.setSp_pixel (s : State) (k : Fin 16) (c : Fin 64) (r : Fin 32) : (s.setSp k).pixel c r = s.pixel c r := rfl

/-! ## setSlot -/

@[simp] theorem State.setSlot_v (s : State) (k : Fin 16) (w : Word) : (s.setSlot k w).v = s.v := rfl
@[simp] theorem State.setSlot_i (s : State) (k : Fin 16) (w : Word) : (s.setSlot k w).i = s.i := rfl
@[simp] theorem State.setSlot_pc (s : State) (k : Fin 16) (w : Word) : (s.setSlot k w).pc = s.pc := rfl
@[simp] theorem State.setSlot_sp (s : State) (k : Fin 16) (w : Word) : (s.setSlot k w).sp = s.sp := rfl
@[simp] theorem State.setSlot_stack (s : State) (k : Fin 16) (w : Word) : (s.setSlot k w).stack = s.stack.set k.val w k.isLt := rfl
@[simp] theorem State.setSlot_mem (s : State) (k : Fin 16) (w : Word) : (s.setSlot k w).mem = s.mem := rfl
@[simp] theorem State.setSlot_screen (s : State) (k : Fin 16) (w : Word) : (s.setSlot k w).screen = s.screen := rfl
@[simp] theorem State.setSlot_dt (s : State) (k : Fin 16) (w : Word) : (s.setSlot k w).dt = s.dt := rfl
@[simp] theorem State.setSlot_st (s : State) (k : Fin 16) (w : Word) : (s.setSlot k w).st = s.st := rfl
@[simp] theorem State.setSlot_fault (s : State) (k : Fin 16) (w : Word) : (s.setSlot k w).fault = s.fault := rfl
@[simp] theorem State.setSlot_clockLast (s : State) (k : Fin 16) (w : Word) : (s.setSlot k w).clockLast = s.clockLast := rfl
@[simp] theorem State.setSlot_clockDraws (s : State) (k : Fin 16) (w : Word) : (s.setSlot k w).clockDraws = s.clockDraws := rfl
@[simp] theorem State.setSlot_rndDraws (s : State) (k : Fin 16) (w : Word) : (s.setSlot k w).rndDraws = s.rndDraws := rfl
@[simp] theorem State.setSlot_reg (s : State) (k : Fin 16) (w : Word) (r : Reg) : (s.setSlot k w).reg r = s.reg r := rfl
@[simp] theorem State.setSlot_pixel (s : State) (k : Fin 16) (w : Word) (c : Fin 64) (r : Fin 32) : (s.setSlot k w).pixel c r = s.pixel c r := rfl

/-! ## setMem -/

@[simp] theorem State.setMem_v (s : State) (m : Memory) : (s.setMem m).v = s.v := rfl
@[simp] theorem State.setMem_i (s : State) (m : Memory) : (s.setMem m).i = s.i := rfl
@[simp] theorem State.setMem_pc (s : State) (m : Memory) : (s.setMem m).pc = s.pc := rfl
@[simp] theorem State.setMem_sp (s : State) (m : Memory) : (s.setMem m).sp = s.sp := rfl
@[simp] theorem State.setMem_stack (s : State) (m : Memory) : (s.setMem m).stack = s.stack := rfl
@[simp] theorem State.setMem_mem (s : State) (m : Memory) : (s.setMem m).mem = m := rfl
@[simp] theorem State.setMem_screen (s : State) (m : Memory) : (s.setMem m).screen = s.screen := rfl
@[simp] theorem State.setMem_dt (s : State) (m : Memory) : (s.setMem m).dt = s.dt := rfl
@[simp] theorem State.setMem_st (s : State) (m : Memory) : (s.setMem m).st = s.st := rfl
@[simp] theorem State.setMem_fault (s : State) (m : Memory) : (s.setMem m).fault = s.fault := rfl
@[simp] theorem State.setMem_clockLast (s : State) (m : Memory) : (s.setMem m).clockLast = s.clockLast := rfl
@[simp] theorem State.setMem_clockDraws (s : State) (m : Memory) : (s.setMem m).clockDraws = s.clockDraws := rfl
@[simp] theorem State.setMem_rndDraws (s : State) (m : Memory) : (s.setMem m).rndDraws = s.rndDraws := rfl
@[simp] theorem State.setMem_reg (s : State) (m : Memory) (r : Reg) : (s.setMem m).reg r = s.reg r := rfl
@[simp] theorem State.setMem_slot (s : State) (m : Memory) (j : Fin 16) : (s.setMem m).slot j = s.slot j := rfl
@[simp] theorem State.setMem_pixel (s : State) (m : Memory) (c : Fin 64) (r : Fin 32) : (s.setMem m).pixel c r = s.pixel c r := rfl

/-! ## setScreen -/

@[simp] theorem State.setScreen_v (s : State) (p : Screen) : (s.setScreen p).v = s.v := rfl
@[simp] theorem State.setScreen_i (s : State) (p : Screen) : (s.setScreen p).i = s.i := rfl
@[simp] theorem State.setScreen_pc (s : State) (p : Screen) : (s.setScreen p).pc = s.pc := rfl
@[simp] theorem State.setScreen_sp (s : State) (p : Screen) : (s.setScreen p).sp = s.sp := rfl
@[simp] theorem State.setScreen_stack (s : State) (p : Screen) : (s.setScreen p).stack = s.stack := rfl
@[simp] theorem State.setScreen_mem (s : State) (p : Screen) : (s.setScreen p).mem = s.mem := rfl
@[simp] theorem State.setScreen_screen (s : State) (p : Screen) : (s.setScreen p).screen = p := rfl
@[simp] theorem State.setScreen_dt (s : State) (p : Screen) : (s.setScreen p).dt = s.dt := rfl
@[simp] theorem State.setScreen_st (s : State) (p : Screen) : (s.setScreen p).st = s.st := rfl
@[simp] theorem State.setScreen_fault (s : State) (p : Screen) : (s.setScreen p).fault = s.fault := rfl
@[simp] theorem State.setScreen_clockLast (s : State) (p : Screen) : (s.setScreen p).clockLast = s.clockLast := rfl
@[simp] theorem State.setScreen_clockDraws (s : State) (p : Screen) : (s.setScreen p).clockDraws = s.clockDraws := rfl
@[simp] theorem State.setScreen_rndDraws (s : State) (p : Screen) : (s.setScreen p).rndDraws = s.rndDraws := rfl
@[simp] theorem State.setScreen_reg (s : State) (p : Screen) (r : Reg) : (s.setScreen p).reg r = s.reg r := rfl
@[simp] theorem State.setScreen_slot (s : State) (p : Screen) (j : Fin 16) : (s.setScreen p).slot j = s.slot j := rfl

/-! ## setDt -/

@[simp] theorem State.setDt_v (s : State) (e : Rat) : (s.setDt e).v = s.v := rfl
@[simp] theorem State.setDt_i (s : State) (e : Rat) : (s.setDt e).i = s.i := rfl
@[simp] theorem State.setDt_pc (s : State) (e : Rat) : (s.setDt e).pc = s.pc := rfl
@[simp] theorem State.setDt_sp (s : State) (e : Rat) : (s.setDt e).sp = s.sp := rfl
@[simp] theorem State.setDt_stack (s : State) (e : Rat) : (s.setDt e).stack = s.stack := rfl
@[simp] theorem State.setDt_mem (s : State) (e : Rat) : (s.setDt e).mem = s.mem := rfl
@[simp] theorem State.setDt_screen (s : State) (e : Rat) : (s.setDt e).screen = s.screen := rfl
@[simp] theorem State.setDt_dt (s : State) (e : Rat) : (s.setDt e).dt = e := rfl
@[simp] theorem State.setDt_st (s : State) (e : Rat) : (s.setDt e).st = s.st := rfl
@[simp] theorem State.setDt_fault (s : State) (e : Rat) : (s.setDt e).fault = s.fault := rfl
@[simp] theorem State.setDt_clockLast (s : State) (e : Rat) : (s.setDt e).clockLast = s.clockLast := rfl
@[simp] theorem State.setDt_clockDraws (s : State) (e : Rat) : (s.setDt e).clockDraws = s.clockDraws := rfl
@[simp] theorem State.setDt_rndDraws (s : State) (e : Rat) : (s.setDt e).rndDraws = s.rndDraws := rfl
@[simp] theorem State.setDt_reg (s : State) (e : Rat) (r : Reg) : (s.setDt e).reg r = s.reg r := rfl
@[simp] theorem State.setDt_slot (s : State) (e : Rat) (j : Fin 16) : (s.setDt e).slot j = s.slot j := rfl
@[simp] theorem State.setDt_pixel (s : State) (e : Rat) (c : Fin 64) (r : Fin 32) : (s.setDt e).pixel c r = s.pixel c r := rfl

/-! ## setSt -/

@[simp] theorem State.setSt_v (s : State) (e : Rat) : (s.setSt e).v = s.v := rfl
@[simp] theorem State.setSt_i (s : State) (e : Rat) : (s.setSt e).i = s.i := rfl
@[simp] theorem State.setSt_pc (s : State) (e : Rat) : (s.setSt e).pc = s.pc := rfl
@[simp] theorem State.setSt_sp (s : State) (e : Rat) : (s.setSt e).sp = s.sp := rfl
@[simp] theorem State.setSt_stack (s : State) (e : Rat) : (s.setSt e).stack = s.stack := rfl
@[simp] theorem State.setSt_mem (s : State) (e : Rat) : (s.setSt e).mem = s.mem := rfl
@[simp] theorem State.setSt_screen (s : State) (e : Rat) : (s.setSt e).screen = s.screen := rfl
@[simp] theorem State.setSt_dt (s : State) (e : Rat) : (s.setSt e).dt = s.dt := rfl
@[simp] theorem State.setSt_st (s : State) (e : Rat) : (s.setSt e).st = e := rfl
@[simp] theorem State.setSt_fault (s : State) (e : Rat) : (s.setSt e).fault = s.fault := rfl
@[simp] theorem State.setSt_clockLast (s : State) (e : Rat) : (s.setSt e).clockLast = s.clockLast := rfl
@[simp] theorem State.setSt_clockDraws (s : State) (e : Rat) : (s.setSt e).clockDraws = s.clockDraws := rfl
@[simp] theorem State.setSt_rndDraws (s : State) (e : Rat) : (s.setSt e).rndDraws = s.rndDraws := rfl
@[simp] theorem State.setSt_reg (s : State) (e : Rat) (r : Reg) : (s.setSt e).reg r = s.reg r := rfl
@[simp] theorem State.setSt_slot (s : State) (e : Rat) (j : Fin 16) : (s.setSt e).slot j = s.slot j := rfl
@[simp] theorem State.setSt_pixel (s : State) (e : Rat) (c : Fin 64) (r : Fin 32) : (s.setSt e).pixel c r = s.pixel c r := rfl

/-! ## setFault -/

@[simp] theorem State.setFault_v (s : State) (k : FaultKind) : (s.setFault k).v = s.v := rfl
@[simp] theorem State.setFault_i (s : State) (k : FaultKind) : (s.setFault k).i = s.i := rfl
@[simp] theorem State.setFault_pc (s : State) (k : FaultKind) : (s.setFault k).pc = s.pc := rfl
@[simp] theorem State.setFault_sp (s : State) (k : FaultKind) : (s.setFault k).sp = s.sp := rfl
@[simp] theorem State.setFault_stack (s : State) (k : FaultKind) : (s.setFault k).stack = s.stack := rfl
@[simp] theorem State.setFault_mem (s : State) (k : FaultKind) : (s.setFault k).mem = s.mem := rfl
@[simp] theorem State.setFault_screen (s : State) (k : FaultKind) : (s.setFault k).screen = s.screen := rfl
@[simp] theorem State.setFault_dt (s : State) (k : FaultKind) : (s.setFault k).dt = s.dt := rfl
@[simp] theorem State.setFault_st (s : State) (k : FaultKind) : (s.setFault k).st = s.st := rfl
@[simp] theorem State.setFault_fault (s : State) (k : FaultKind) : (s.setFault k).fault = some k := rfl
@[simp] theorem State.setFault_clockLast (s : State) (k : FaultKind) : (s.setFault k).clockLast = s.clockLast := rfl
@[simp] theorem State.setFault_clockDraws (s : State) (k : FaultKind) : (s.setFault k).clockDraws = s.clockDraws := rfl
@[simp] theorem State.setFault_rndDraws (s : State) (k : FaultKind) : (s.setFault k).rndDraws = s.rndDraws := rfl
@[simp] theorem State.setFault_reg (s : State) (k : FaultKind) (r : Reg) : (s.setFault k).reg r = s.reg r := rfl
@[simp] theorem State.setFault_slot (s : State) (k : FaultKind) (j : Fin 16) : (s.setFault k).slot j = s.slot j := rfl
@[simp] theorem State.setFault_pixel (s : State) (k : FaultKind) (c : Fin 64) (r : Fin 32) : (s.setFault k).pixel c r = s.pixel c r := rfl

/-! ## setClock -/

@[simp] theorem State.setClock_v (s : State) (q : Rat) (n : Nat) : (s.setClock q n).v = s.v := rfl
@[simp] theorem State.setClock_i (s : State) (q : Rat) (n : Nat) : (s.setClock q n).i = s.i := rfl
@[simp] theorem State.setClock_pc (s : State) (q : Rat) (n : Nat) : (s.setClock q n).pc = s.pc := rfl
@[simp] theorem State.setClock_sp (s : State) (q : Rat) (n : Nat) : (s.setClock q n).sp = s.sp := rfl
@[simp] theorem State.setClock_stack (s : State) (q : Rat) (n : Nat) : (s.setClock q n).stack = s.stack := rfl
@[simp] theorem State.setClock_mem (s : State) (q : Rat) (n : Nat) : (s.setClock q n).mem = s.mem := rfl
@[simp] theorem State.setClock_screen (s : State) (q : Rat) (n : Nat) : (s.setClock q n).screen = s.screen := rfl
@[simp] theorem State.setClock_dt (s : State) (q : Rat) (n : Nat) : (s.setClock q n).dt = s.dt := rfl
@[simp] theorem State.setClock_st (s : State) (q : Rat) (n : Nat) : (s.setClock q n).st = s.st := rfl
@[simp] theorem State.setClock_fault (s : State) (q : Rat) (n : Nat) : (s.setClock q n).fault = s.fault := rfl
@[simp] theorem State.setClock_clockLast (s : State) (q : Rat) (n : Nat) : (s.setClock q n).clockLast = q := rfl
@[simp] theorem State.setClock_clockDraws (s : State) (q : Rat) (n : Nat) : (s.setClock q n).clockDraws = n := rfl
@[simp] theorem State.setClock_rndDraws (s : State) (q : Rat) (n : Nat) : (s.setClock q n).rndDraws = s.rndDraws := rfl
@[simp] theorem State.setClock_reg (s : State) (q : Rat) (n : Nat) (r : Reg) : (s.setClock q n).reg r = s.reg r := rfl
@[simp] theorem State.setClock_slot (s : State) (q : Rat) (n : Nat) (j : Fin 16) : (s.setClock q n).slot j = s.slot j := rfl
@[simp] theorem State.setClock_pixel (s : State) (q : Rat) (n : Nat) (c : Fin 64) (r : Fin 32) : (s.setClock q n).pixel c r = s.pixel c r := rfl

/-! ## setRnd -/

@[simp] theorem State.setRnd_v (s : State) (n : Nat) : (s.setRnd n).v = s.v := rfl
@[simp] theorem State.setRnd_i (s : State) (n : Nat) : (s.setRnd n).i = s.i := rfl
@[simp] theorem State.setRnd_pc (s : State) (n : Nat) : (s.setRnd n).pc = s.pc := rfl
@[simp] theorem State.setRnd_sp (s : State) (n : Nat) : (s.setRnd n).sp = s.sp := rfl
@[simp] theorem State.setRnd_stack (s : State) (n : Nat) : (s.setRnd n).stack = s.stack := rfl
@[simp] theorem State.setRnd_mem (s : State) (n : Nat) : (s.setRnd n).mem = s.mem := rfl
@[simp] theorem State.setRnd_screen (s : State) (n : Nat) : (s.setRnd n).screen = s.screen := rfl
@[simp] theorem State.setRnd_dt (s : State) (n : Nat) : (s.setRnd n).dt = s.dt := rfl
@[simp] theorem State.setRnd_st (s : State) (n : Nat) : (s.setRnd n).st = s.st := rfl
@[simp] theorem State.setRnd_fault (s : State) (n : Nat) : (s.setRnd n).fault = s.fault := rfl
@[simp] theorem State.setRnd_clockLast (s : State) (n : Nat) : (s.setRnd n).clockLast = s.clockLast := rfl
@[simp] theorem State.setRnd_clockDraws (s : State) (n : Nat) : (s.setRnd n).clockDraws = s.clockDraws := rfl
@[simp] theorem State.setRnd_rndDraws (s : State) (n : Nat) : (s.setRnd n).rndDraws = n := rfl
@[simp] theorem State.setRnd_reg (s : State) (n : Nat) (r : Reg) : (s.setRnd n).reg r = s.reg r := rfl
@[simp] theorem State.setRnd_slot (s : State) (n : Nat) (j : Fin 16) : (s.setRnd n).slot j = s.slot j := rfl
@[simp] theorem State.setRnd_pixel (s : State) (n : Nat) (c : Fin 64) (r : Fin 32) : (s.setRnd n).pixel c r = s.pixel c r := rfl

/-! ## Reading what was written -/

/-- A register read after a register write. -/
theorem State.setReg_reg (s : State) (x : Reg) (b : Byte) (r : Reg) :
    (s.setReg x b).reg r = if r = x then b else s.reg r := by
  simp only [State.reg, State.setReg_v, Vector.getElem_set, Fin.ext_iff, eq_comm]

@[simp] theorem State.setReg_reg_self (s : State) (x : Reg) (b : Byte) : (s.setReg x b).reg x = b := by
  simp [State.setReg_reg]

/-- A stack slot read after a slot write. -/
theorem State.setSlot_slot (s : State) (k : Fin 16) (w : Word) (j : Fin 16) :
    (s.setSlot k w).slot j = if j = k then w else s.slot j := by
  simp only [State.slot, State.setSlot_stack, Vector.getElem_set, Fin.ext_iff, eq_comm]

@[simp] theorem State.setSlot_slot_self (s : State) (k : Fin 16) (w : Word) : (s.setSlot k w).slot k = w := by
  simp [State.setSlot_slot]

/-- A pixel read after the screen is replaced. -/
@[simp] theorem State.setScreen_pixel (s : State) (p : Screen) (c : Fin 64) (r : Fin 32) :
    (s.setScreen p).pixel c r = p[r.val][c.val] := rfl

/-! ## The advance of the program counter -/

@[simp] theorem State.advance_v (s : State) : s.advance.v = s.v := rfl
@[simp] theorem State.advance_i (s : State) : s.advance.i = s.i := rfl
@[simp] theorem State.advance_pc (s : State) : s.advance.pc = s.pc + 2 := rfl
@[simp] theorem State.advance_sp (s : State) : s.advance.sp = s.sp := rfl
@[simp] theorem State.advance_stack (s : State) : s.advance.stack = s.stack := rfl
@[simp] theorem State.advance_mem (s : State) : s.advance.mem = s.mem := rfl
@[simp] theorem State.advance_screen (s : State) : s.advance.screen = s.screen := rfl
@[simp] theorem State.advance_dt (s : State) : s.advance.dt = s.dt := rfl
@[simp] theorem State.advance_st (s : State) : s.advance.st = s.st := rfl
@[simp] theorem State.advance_fault (s : State) : s.advance.fault = s.fault := rfl
@[simp] theorem State.advance_clockLast (s : State) : s.advance.clockLast = s.clockLast := rfl
@[simp] theorem State.advance_clockDraws (s : State) : s.advance.clockDraws = s.clockDraws := rfl
@[simp] theorem State.advance_rndDraws (s : State) : s.advance.rndDraws = s.rndDraws := rfl
@[simp] theorem State.advance_reg (s : State) (r : Reg) : s.advance.reg r = s.reg r := rfl
@[simp] theorem State.advance_slot (s : State) (j : Fin 16) : s.advance.slot j = s.slot j := rfl
@[simp] theorem State.advance_pixel (s : State) (c : Fin 64) (r : Fin 32) : s.advance.pixel c r = s.pixel c r := rfl

end Sys2Proof.Machine
end

