-- ==== Sys2Proof/Laws/Ops.lean ====
section
/-! SUPPORT. One lemma per shared operation that says everything it can do. -/

namespace Sys2Proof.Machine

/-! ## Memory reads -/

/-- `MemRead(addr, 1)`: in range the byte, out of range the fault. -/
theorem Memory.readByte_cases (m : Memory) (a : Nat) :
    (a ≤ 4095 ∧ m.readByte a = .ok (m.read a)) ∨ (4096 ≤ a ∧ m.readByte a = .error .memoryOutOfBounds) := by
  unfold Memory.readByte Config.memSize
  split
  · exact .inl ⟨by omega, rfl⟩
  · exact .inr ⟨by omega, rfl⟩

/-- `MemRead(addr, 2)`: in range the big-endian word, out of range the fault. -/
theorem Memory.readWord_cases (m : Memory) (a : Nat) :
    (a ≤ 4094 ∧ m.readWord a = .ok (wordOfBytes (m.read a) (m.read (a + 1)))) ∨
    (4095 ≤ a ∧ m.readWord a = .error .memoryOutOfBounds) := by
  unfold Memory.readWord Config.memSize
  split
  · exact .inl ⟨by omega, rfl⟩
  · exact .inr ⟨by omega, rfl⟩

/-! ## Fetch -/

/-- A fetch reads the word at `pc` and advances, or faults; nothing else. -/
theorem fetch_cases (s : State) :
    (s.pc.toNat ≤ 4094 ∧
      fetch s = .ok (wordOfBytes (s.mem.read s.pc.toNat) (s.mem.read (s.pc.toNat + 1)), s.advance)) ∨
    (4095 ≤ s.pc.toNat ∧ fetch s = .error .memoryOutOfBounds) := by
  unfold fetch
  rcases Memory.readWord_cases s.mem s.pc.toNat with ⟨h, e⟩ | ⟨h, e⟩
  · exact .inl ⟨h, by rw [e]⟩
  · exact .inr ⟨h, by rw [e]⟩

/-- After a fetch that succeeded the advance did not wrap. -/
theorem State.advance_toNat {s : State} (h : s.pc.toNat ≤ 4094) : s.advance.pc.toNat = s.pc.toNat + 2 := by
  simp only [State.advance_pc, BitVec.toNat_add]
  change (s.pc.toNat + 2) % 2 ^ 16 = s.pc.toNat + 2
  omega

/-! ## The call stack -/

/-- A push: below the top, `sp` one more and the slot it then names written; at the top, none. -/
theorem State.push_cases (s : State) (w : Word) :
    (∃ top : Fin 16, top.val = s.sp.val + 1 ∧ s.push w = some ((s.setSp top).setSlot top w)) ∨
    (s.sp.val = 15 ∧ s.push w = none) := by
  unfold State.push
  split
  · exact .inl ⟨_, rfl, rfl⟩
  · have := s.sp.isLt
    exact .inr ⟨by omega, rfl⟩

/-- A pop: the slot `sp` names, and `sp` one less; on the empty stack, none. -/
theorem State.pop_cases (s : State) :
    (∃ below : Fin 16, s.sp.val = below.val + 1 ∧ s.pop = some (s.slot s.sp, s.setSp below)) ∨
    (s.sp.val = 0 ∧ s.pop = none) := by
  unfold State.pop
  split
  · rename_i h; exact .inr ⟨h, rfl⟩
  · rename_i h
    exact .inl ⟨⟨s.sp.val - 1, by omega⟩, (Nat.sub_add_cancel (by omega)).symm, rfl⟩

/-! ## Environment -/

/-- A clock sample is not less than the one before, is recorded, is counted, and changes nothing else. -/
theorem sampleNow_spec (s : State) :
    ∃ now, sampleNow s = (now, s.setClock now (s.clockDraws + 1)) ∧ s.clockLast ≤ now :=
  ⟨_, rfl, le_add_of_nonneg_right (Config.clockAdvance s.clockDraws).2⟩

/-- A random byte is counted and changes nothing else. -/
theorem drawRnd_spec (s : State) : drawRnd s = (Config.rndByte s.rndDraws, s.setRnd (s.rndDraws + 1)) := rfl

/-! ## Operands -/

@[simp] theorem addrOperand_toNat (nnn : Addr12) : (addrOperand nnn).toNat = nnn.toNat := by
  have := nnn.isLt
  simp only [addrOperand, BitVec.toNat_setWidth]
  omega

@[simp] theorem zext16_toNat (b : Byte) : (zext16 b).toNat = b.toNat := by
  have := b.isLt
  simp only [zext16, BitVec.toNat_setWidth]
  omega

/-! ## Flags -/

theorem flagByte_toNat (b : Bool) : (flagByte b).toNat = if b = true then 1 else 0 := by
  cases b <;> rfl

theorem carryFlag_toNat (a b : Byte) : (carryFlag a b).toNat = if 256 ≤ a.toNat + b.toNat then 1 else 0 := by
  simp [carryFlag, flagByte_toNat]

theorem noBorrowFlag_toNat (a b : Byte) : (noBorrowFlag a b).toNat = if b.toNat ≤ a.toNat then 1 else 0 := by
  simp [noBorrowFlag, flagByte_toNat]

theorem droppedLowFlag_toNat (a : Byte) : (droppedLowFlag a).toNat = a.toNat % 2 := by
  rw [droppedLowFlag, flagByte_toNat, BitVec.getLsbD, Nat.testBit_zero]
  rcases Nat.mod_two_eq_zero_or_one a.toNat with h | h <;> simp [h]

theorem droppedHighFlag_toNat (a : Byte) : (droppedHighFlag a).toNat = a.toNat / 128 := by
  have := a.isLt
  rw [droppedHighFlag, flagByte_toNat, BitVec.getLsbD, Nat.testBit_eq_decide_div_mod_eq]
  have : a.toNat / 128 = 0 ∨ a.toNat / 128 = 1 := by omega
  rcases this with h | h <;> simp [h]

/-! ## The screen -/

/-- A pixel of a row after a byte is written into it. -/
theorem overwriteRow_getElem (row : Vector Bool 64) (c0 : Nat) (byte : Byte) (c : Nat) (hc : c < 64) :
    (overwriteRow row c0 byte)[c] =
      if c0 ≤ c ∧ c < c0 + 8 then byte.getLsbD (7 - (c - c0)) else row[c] := by
  simp [overwriteRow]

/-- A pixel of the screen after one row is replaced. -/
theorem screen_set_getElem (scr : Screen) (r0 : Nat) (h0 : r0 < 32) (row : Vector Bool 64) (c r : Nat) (hr : r < 32)
    (hc : c < 64) : (scr.set r0 row h0)[r][c] = if r = r0 then row[c] else scr[r][c] := by
  rw [Vector.getElem_set]
  by_cases h : r0 = r
  · subst h; simp
  · rw [if_neg h, if_neg (Ne.symm h)]

/-- `draw_row`: in range the row is overwritten and the change of it reported; out of range nothing is. -/
theorem drawRow_cases (scr : Screen) (c0 r : Nat) (byte : Byte) :
    (∃ h : r < 32, drawRow scr c0 r byte =
      .ok (scr.set r (overwriteRow scr[r] c0 byte) h, overwriteRow scr[r] c0 byte != scr[r])) ∨
    (32 ≤ r ∧ drawRow scr c0 r byte = .error .memoryOutOfBounds) := by
  unfold drawRow
  split
  · rename_i h; exact .inl ⟨h, rfl⟩
  · exact .inr ⟨by omega, rfl⟩

@[simp] theorem clearScreen_getElem (c r : Nat) (hr : r < 32) (hc : c < 64) : clearScreen[r][c] = false := by
  simp [clearScreen]

end Sys2Proof.Machine
end

