-- ==== Sys2Proof/Laws/Step.lean ====
section
/-! SUPPORT. What an executed instruction and a step can do, said once. -/

namespace Sys2Proof.Machine

/-! ## Frames -/

/-- Nothing changed: every frame holds. -/
theorem Part.same_refl (p : Part) (s : State) : p.Same s s := by
  cases p <;> first | rfl | exact ⟨rfl, rfl⟩

/-- Agreement on a part is transitive. -/
theorem Part.same_trans {p : Part} {s t u : State} (h : p.Same s t) (h' : p.Same t u) : p.Same s u := by
  cases p <;> first | exact h'.trans h | exact ⟨h'.1.trans h.1, h'.2.trans h.2⟩

theorem Frame.refl (s : State) (c : Part → Prop) : Frame s s c := fun p _ => p.same_refl s

theorem Frame.trans {s t u : State} {c : Part → Prop} (h : Frame s t c) (h' : Frame t u c) : Frame s u c :=
  fun p hp => Part.same_trans (h p hp) (h' p hp)

/-- A frame that allows less is one that allows more. -/
theorem Frame.mono {s t : State} {c d : Part → Prop} (h : Frame s t c) (hcd : ∀ p, c p → d p) : Frame s t d :=
  fun p hp => h p fun hc => hp (hcd p hc)

/-- The frame of each writer. -/
theorem frame_setReg (s : State) (x : Reg) (b : Byte) : Frame s (s.setReg x b) (· = .reg x) := by
  intro p hp
  cases p with
  | reg r =>
    have : r ≠ x := fun h => hp (by rw [h])
    exact (State.setReg_reg s x b r).trans (if_neg this)
  | clock => exact ⟨rfl, rfl⟩
  | _ => rfl

theorem frame_setSlot (s : State) (k : Fin 16) (w : Word) : Frame s (s.setSlot k w) (· = .slot k) := by
  intro p hp
  cases p with
  | slot j =>
    have : j ≠ k := fun h => hp (by rw [h])
    exact (State.setSlot_slot s k w j).trans (if_neg this)
  | clock => exact ⟨rfl, rfl⟩
  | _ => rfl

theorem frame_setI (s : State) (w : Word) : Frame s (s.setI w) (· = .addr) := by
  intro p hp
  cases p <;> first | rfl | exact ⟨rfl, rfl⟩ | exact absurd rfl hp

theorem frame_setPc (s : State) (w : Word) : Frame s (s.setPc w) (· = .pc) := by
  intro p hp
  cases p <;> first | rfl | exact ⟨rfl, rfl⟩ | exact absurd rfl hp

theorem frame_setSp (s : State) (k : Fin 16) : Frame s (s.setSp k) (· = .sp) := by
  intro p hp
  cases p <;> first | rfl | exact ⟨rfl, rfl⟩ | exact absurd rfl hp

theorem frame_setScreen (s : State) (q : Screen) : Frame s (s.setScreen q) (fun p => ∃ c r, p = .pixel c r) := by
  intro p hp
  cases p <;> first | rfl | exact ⟨rfl, rfl⟩ | exact absurd ⟨_, _, rfl⟩ hp

theorem frame_setDt (s : State) (e : Rat) : Frame s (s.setDt e) (· = .dt) := by
  intro p hp
  cases p <;> first | rfl | exact ⟨rfl, rfl⟩ | exact absurd rfl hp

theorem frame_setSt (s : State) (e : Rat) : Frame s (s.setSt e) (· = .st) := by
  intro p hp
  cases p <;> first | rfl | exact ⟨rfl, rfl⟩ | exact absurd rfl hp

theorem frame_setFault (s : State) (k : FaultKind) : Frame s (s.setFault k) (· = .latch) := by
  intro p hp
  cases p <;> first | rfl | exact ⟨rfl, rfl⟩ | exact absurd rfl hp

theorem frame_setClock (s : State) (q : Rat) (n : Nat) : Frame s (s.setClock q n) (· = .clock) := by
  intro p hp
  cases p <;> first | rfl | exact absurd rfl hp

theorem frame_setRnd (s : State) (n : Nat) : Frame s (s.setRnd n) (· = .rnd) := by
  intro p hp
  cases p <;> first | rfl | exact ⟨rfl, rfl⟩ | exact absurd rfl hp

/-- A skip changes `pc` alone. -/
theorem frame_skipIf (s : State) (b : Bool) : Frame s (s.skipIf b) (· = .pc) := by
  cases b
  · exact Frame.refl s _
  · exact frame_setPc s _

/-- Where a skip leaves `pc`. -/
theorem State.skipIf_pc (s : State) (b : Bool) : (s.skipIf b).pc = if b = true then s.pc + 2 else s.pc := by
  cases b <;> rfl

/-- Result and flag, in either order, change the two registers alone. -/
theorem frame_setResultThenFlag (s : State) (x : Reg) (result flag : Byte) :
    FrameBut s (s.setResultThenFlag x result flag) [.reg x, .reg Reg.vf] :=
  ((frame_setReg s x result).mono (by simp)).trans ((frame_setReg _ Reg.vf flag).mono (by simp))

theorem frame_setFlagThenResult (s : State) (x : Reg) (flag result : Byte) :
    FrameBut s (s.setFlagThenResult x flag result) [.reg x, .reg Reg.vf] :=
  ((frame_setReg s Reg.vf flag).mono (by simp)).trans ((frame_setReg _ x result).mono (by simp))

/-! ## The snapshot -/

/-- Everything a snapshot does: two clock samples, neither less than the one before, are recorded and counted; each timer is shown
at one of them, in either order; nothing else of the state changes. -/
theorem snapshot_spec (s : State) :
    ∃ first second, s.clockLast ≤ first ∧ first ≤ second ∧ (snapshot s).2 = s.setClock second (s.clockDraws + 2) ∧
      (((snapshot s).1.dtTicks = remainingTicks s.dt first ∧ (snapshot s).1.stTicks = remainingTicks s.st second) ∨
       ((snapshot s).1.dtTicks = remainingTicks s.dt second ∧ (snapshot s).1.stTicks = remainingTicks s.st first)) := by
  obtain ⟨first, e1, h1⟩ := sampleNow_spec s
  obtain ⟨second, e2, h2⟩ := sampleNow_spec (s.setClock first (s.clockDraws + 1))
  refine ⟨first, second, h1, h2, ?_, ?_⟩
  · simp only [snapshot, e1, e2]; rfl
  · simp only [snapshot, e1, e2]
    cases Config.snapshotStFirst s.clockDraws
    · exact .inl ⟨rfl, rfl⟩
    · exact .inr ⟨rfl, rfl⟩

/-- The fields a snapshot shows as they stand. -/
@[simp] theorem snapshot_v (s : State) : (snapshot s).1.v = s.v := rfl
@[simp] theorem snapshot_i (s : State) : (snapshot s).1.i = s.i := rfl
@[simp] theorem snapshot_pc (s : State) : (snapshot s).1.pc = s.pc := rfl
@[simp] theorem snapshot_sp (s : State) : (snapshot s).1.sp = s.sp := rfl
@[simp] theorem snapshot_stack (s : State) : (snapshot s).1.stack = s.stack := rfl
@[simp] theorem snapshot_screen (s : State) : (snapshot s).1.screen = s.screen := rfl
@[simp] theorem snapshot_fault (s : State) : (snapshot s).1.fault = s.fault := rfl

/-! ## A step -/

/-- The word a fetch assembles is the number `wordAt` names. -/
theorem wordAt_eq (s : State) :
    BitVec.ofNat 16 (wordAt s) = wordOfBytes (s.mem.read s.pc.toNat) (s.mem.read (s.pc.toNat + 1)) := by
  apply BitVec.eq_of_toNat_eq
  rw [wordOfBytes_toNat, BitVec.toNat_ofNat, wordAt]
  have h1 := (s.mem.read s.pc.toNat).isLt
  have h2 := (s.mem.read (s.pc.toNat + 1)).isLt
  omega

/-- Everything a step can do: nothing (faulted); fault at the fetch; fault at an illegal word; or run the instruction at `pc`, with
`pc` advanced. -/
theorem step_cases (s : State) :
    (∃ k, s.fault = some k ∧ step s = .next s) ∨
    (s.fault = none ∧ 4095 ≤ s.pc.toNat ∧ step s = .next (s.setFault .memoryOutOfBounds)) ∨
    (s.fault = none ∧ s.pc.toNat ≤ 4094 ∧ ∃ r, decodeWord (BitVec.ofNat 16 (wordAt s)) = .error r ∧
      step s = .next (s.advance.setFault (rejectKind r))) ∨
    (s.fault = none ∧ s.pc.toNat ≤ 4094 ∧ ∃ i, decodeWord (BitVec.ofNat 16 (wordAt s)) = .ok i ∧
      step s = exec i s.advance) := by
  unfold step runStep execWord raise
  cases hf : s.fault with
  | some k => exact .inl ⟨k, rfl, rfl⟩
  | none =>
    rcases fetch_cases s with ⟨hp, e⟩ | ⟨hp, e⟩
    · simp only [e, ← wordAt_eq]
      cases hd : decodeWord (BitVec.ofNat 16 (wordAt s)) with
      | error r => exact .inr (.inr (.inl ⟨trivial, hp, r, rfl, rfl⟩))
      | ok i => exact .inr (.inr (.inr ⟨trivial, hp, i, rfl, rfl⟩))
    · simp only [e]
      exact .inr (.inl ⟨trivial, hp, trivial⟩)

/-- Which fault to expect where the word at `pc` is an instruction. -/
theorem expectedFault_ok {s : State} {i : Instr} (hp : s.pc.toNat ≤ 4094)
    (hd : decodeWord (BitVec.ofNat 16 (wordAt s)) = .ok i) :
    expectedFault s = (match i with
      | .ret => if s.sp.val = 0 then some .stackUnderflow else none
      | .call _ => if s.sp.val = 15 then some .stackOverflow else none
      | .drw _ y n =>
        if (s.reg y).toNat + n.toNat ≤ 31 ∧ s.i.toNat + n.toNat ≤ 4095 then none else some .memoryOutOfBounds
      | _ => none) := by
  unfold expectedFault
  have h0 : ¬ 4095 ≤ s.pc.toNat := by omega
  simp only [hd, h0, if_false]
  cases i <;> rfl

/-! ## Runs -/

@[simp] theorem core_run_zero (s : State) : core.run 0 s = .next s := rfl

/-- On any machine: a run of one step more, after a step that gave a next state. -/
theorem host_run_succ (M : Host.Core) {s s' : M.State} (n : Nat) (h : M.step s = .next s') :
    M.run (n + 1) s = M.run n s' := by
  rw [Host.Core.run, h]

/-- On any machine: a run of one step more that gave a state began with a step that gave one. -/
theorem host_run_succ_inv (M : Host.Core) {s t : M.State} {n : Nat} (h : M.run (n + 1) s = .next t) :
    ∃ s', M.step s = .next s' ∧ M.run n s' = .next t := by
  rw [Host.Core.run] at h
  split at h
  · exact ⟨_, ‹_›, h⟩
  · cases h
  · cases h

/-- A run of one step more, after a step that gave a next state. -/
theorem core_run_succ {s s' : State} (n : Nat) (h : step s = .next s') : core.run (n + 1) s = core.run n s' :=
  host_run_succ core n h

/-- A run of one step more that gave a state began with a step that gave one. -/
theorem core_run_succ_inv {s t : State} {n : Nat} (h : core.run (n + 1) s = .next t) :
    ∃ s', step s = .next s' ∧ core.run n s' = .next t := host_run_succ_inv core h

/-- A reflexive and transitive relation that every step keeps holds along every run. -/
theorem core_run_keeps {P : State → State → Prop} (hrefl : ∀ s, P s s) (htrans : ∀ s t u, P s t → P t u → P s u)
    (hstep : ∀ s t, step s = .next t → P s t) : ∀ (n : Nat) (s t : State), core.run n s = .next t → P s t
  | 0, s, t, h => by cases h; exact hrefl s
  | n + 1, s, t, h => by
    obtain ⟨s', h1, h2⟩ := core_run_succ_inv h
    exact htrans s s' t (hstep s s' h1) (core_run_keeps hrefl htrans hstep n s' t h2)

/-! ## Placing an instruction under the fetch -/

/-- The very next step after `withFetchWord` runs exactly the word placed, wherever the machine stood. -/
theorem step_withFetchWord (s : State) (w : Word) (hm : s.mem.wf = true) :
    step (s.withFetchWord 16 w.toNat) = execWord w (s.withFetchWord 16 w.toNat).advance := by
  have hw := w.isLt
  have hpc : (fetchAddress s).toNat + 1 < 4096 := by
    unfold fetchAddress
    split
    · assumption
    · decide
  have hlen : (tableBytes 16 w.toNat).length = 2 := rfl
  have hcopy := Memory.copy_read (bs := tableBytes 16 w.toNat) (m := s.mem) (a := (fetchAddress s).toNat)
    (by rw [hlen]; omega) hm
  unfold step runStep
  rcases fetch_cases (s.withFetchWord 16 w.toNat) with ⟨_, e⟩ | ⟨h, _⟩
  · change (match fetch (s.withFetchWord 16 w.toNat) with
      | .ok (w, s') => execWord w s'
      | .error k => raise k (s.withFetchWord 16 w.toNat)) = _
    rw [e]
    have hword : wordOfBytes ((s.withFetchWord 16 w.toNat).mem.read (s.withFetchWord 16 w.toNat).pc.toNat)
        ((s.withFetchWord 16 w.toNat).mem.read ((s.withFetchWord 16 w.toNat).pc.toNat + 1)) = w := by
      apply BitVec.eq_of_toNat_eq
      rw [wordOfBytes_toNat]
      change ((Memory.copy s.mem (fetchAddress s).toNat (tableBytes 16 w.toNat)).read (fetchAddress s).toNat).toNat * 256 +
        ((Memory.copy s.mem (fetchAddress s).toNat (tableBytes 16 w.toNat)).read ((fetchAddress s).toNat + 1)).toNat = _
      rw [hcopy, hcopy, dif_pos (by rw [hlen]; omega), dif_pos (by rw [hlen]; omega)]
      simp [tableBytes]
      omega
    simp only [hword]
  · have : (s.withFetchWord 16 w.toNat).pc = fetchAddress s := rfl
    rw [this] at h
    omega

end Sys2Proof.Machine
end

