-- ==== Sys2Proof/Laws/Draw.lean ====
section
/-! SUPPORT. What drawing rows does, said once (43_display R112, R114; 60_exceptions R139 d): all rows in range, or the rows before the
first that is not. -/

namespace Sys2Proof.Machine

/-- `scr'` is `scr` with `rows` sprite rows over it, the first of them row `i` of the sprite at `base`, `c0`, `r0`. -/
def RowsOver (m : Memory) (base c0 r0 i rows : Nat) (scr scr' : Screen) : Prop :=
  ∀ (c r : Nat) (_ : c < 64) (_ : r < 32), scr'[r][c] =
    if c0 ≤ c ∧ c < c0 + 8 ∧ r0 + i ≤ r ∧ r < r0 + i + rows then (m.read (base + (r - r0))).getLsbD (7 - (c - c0))
    else scr[r][c]

/-- No row: the screen as it was. -/
theorem rowsOver_zero (m : Memory) (base c0 r0 i : Nat) (scr : Screen) : RowsOver m base c0 r0 i 0 scr scr := by
  intro c r _ _
  rw [if_neg (by omega)]

/-- One row, then the others. -/
theorem rowsOver_succ {m : Memory} {base c0 r0 i rows : Nat} {scr scr' : Screen} (h : r0 + i < 32)
    (hr : RowsOver m base c0 r0 (i + 1) rows
      (scr.set (r0 + i) (overwriteRow scr[r0 + i] c0 (m.read (base + i))) h) scr') :
    RowsOver m base c0 r0 i (rows + 1) scr scr' := by
  intro c r hc hr'
  rw [hr c r hc hr', screen_set_getElem]
  by_cases hri : r = r0 + i
  · subst hri
    have hi : r0 + i - r0 = i := by omega
    rw [if_neg (by omega), if_pos rfl, overwriteRow_getElem, hi]
    by_cases hcc : c0 ≤ c ∧ c < c0 + 8
    · rw [if_pos hcc, if_pos (by omega)]
    · rw [if_neg hcc, if_neg (by omega)]
  · rw [if_neg hri]
    by_cases a : c0 ≤ c ∧ c < c0 + 8 ∧ r0 + (i + 1) ≤ r ∧ r < r0 + (i + 1) + rows
    · rw [if_pos a, if_pos (by omega)]
    · rw [if_neg a, if_neg (by omega)]

/-- A screen is its pixels. -/
theorem screen_ext {a b : Screen} (h : ∀ (c r : Nat) (_ : c < 64) (_ : r < 32), a[r][c] = b[r][c]) : a = b :=
  Vector.ext fun r hr => Vector.ext fun c hc => h c r hc hr

/-- The first row changed or a later row changed, exactly if the whole changed. -/
theorem rowsOver_changed {m : Memory} {base c0 r0 i rows : Nat} {scr scr' : Screen} (h : r0 + i < 32)
    (hr : RowsOver m base c0 r0 (i + 1) rows
      (scr.set (r0 + i) (overwriteRow scr[r0 + i] c0 (m.read (base + i))) h) scr') :
    (overwriteRow scr[r0 + i] c0 (m.read (base + i)) ≠ scr[r0 + i] ∨
      scr' ≠ scr.set (r0 + i) (overwriteRow scr[r0 + i] c0 (m.read (base + i))) h) ↔ scr' ≠ scr := by
  have first : ∀ (c : Nat) (hc : c < 64),
      scr'[r0 + i][c] = (overwriteRow scr[r0 + i] c0 (m.read (base + i)))[c] := by
    intro c hc
    rw [hr c (r0 + i) hc h, if_neg (by omega), screen_set_getElem, if_pos rfl]
  constructor
  · rintro (hne | hne) rfl
    · exact hne (Vector.ext fun c hc => (first c hc).symm)
    · refine hne (screen_ext fun c r hc hr' => ?_)
      rw [screen_set_getElem]
      by_cases hri : r = r0 + i
      · subst hri; rw [if_pos rfl, first c hc]
      · rw [if_neg hri]
  · intro hne
    by_contra hcon
    push Not at hcon
    refine hne (hcon.2.trans ?_)
    rw [hcon.1]
    exact Vector.set_getElem_self h

/-- Every row and every byte in range: the rows are drawn, and the answer is whether anything changed (or had before). -/
theorem drawRows_ok (m : Memory) (base c0 r0 : Nat) : ∀ (k i : Nat) (scr : Screen) (any : Bool),
    r0 + i + k ≤ 32 → base + i + k ≤ 4096 →
    ∃ scr' any', drawRows m base c0 r0 k i scr any = (scr', .ok any') ∧ RowsOver m base c0 r0 i k scr scr' ∧
      (any' = true ↔ any = true ∨ scr' ≠ scr)
  | 0, i, scr, any, _, _ => ⟨scr, any, rfl, rowsOver_zero m base c0 r0 i scr, by simp⟩
  | k + 1, i, scr, any, h1, h2 => by
    rw [drawRows]
    rcases m.readByte_cases (base + i) with ⟨_, e⟩ | ⟨_, _⟩
    · rcases drawRow_cases scr c0 (r0 + i) (m.read (base + i)) with ⟨hr0, e2⟩ | ⟨_, _⟩
      · obtain ⟨scr', any', he, hsp, hany⟩ := drawRows_ok m base c0 r0 k (i + 1)
          (scr.set (r0 + i) (overwriteRow scr[r0 + i] c0 (m.read (base + i))) hr0)
          (any || (overwriteRow scr[r0 + i] c0 (m.read (base + i)) != scr[r0 + i])) (by omega) (by omega)
        simp only [e, e2]
        refine ⟨scr', any', he, rowsOver_succ hr0 hsp, ?_⟩
        rw [hany, Bool.or_eq_true, bne_iff_ne, or_assoc, rowsOver_changed hr0 hsp]
      · omega
    · omega

/-- Some row or some byte out of range: the rows before the first such are drawn, and the fault is the one kind there is. -/
theorem drawRows_error (m : Memory) (base c0 r0 : Nat) : ∀ (k i : Nat) (scr : Screen) (any : Bool),
    32 < r0 + i + k ∨ 4096 < base + i + k → 0 < k →
    ∃ scr', drawRows m base c0 r0 k i scr any = (scr', .error .memoryOutOfBounds) ∧
      RowsOver m base c0 r0 i (min (32 - (r0 + i)) (4096 - (base + i))) scr scr'
  | 0, _, _, _, _, h => absurd h (lt_irrefl 0)
  | k + 1, i, scr, any, h, _ => by
    rw [drawRows]
    rcases m.readByte_cases (base + i) with ⟨_, e⟩ | ⟨_, e⟩
    · rcases drawRow_cases scr c0 (r0 + i) (m.read (base + i)) with ⟨hr0, e2⟩ | ⟨_, e2⟩
      · obtain ⟨scr', he, hsp⟩ := drawRows_error m base c0 r0 k (i + 1)
          (scr.set (r0 + i) (overwriteRow scr[r0 + i] c0 (m.read (base + i))) hr0)
          (any || (overwriteRow scr[r0 + i] c0 (m.read (base + i)) != scr[r0 + i])) (by omega) (by omega)
        simp only [e, e2]
        have hmin : min (32 - (r0 + i)) (4096 - (base + i)) =
          min (32 - (r0 + (i + 1))) (4096 - (base + (i + 1))) + 1 := by omega
        exact ⟨scr', he, hmin ▸ rowsOver_succ hr0 hsp⟩
      · simp only [e, e2]
        have hmin : min (32 - (r0 + i)) (4096 - (base + i)) = 0 := by omega
        exact ⟨scr, rfl, hmin ▸ rowsOver_zero m base c0 r0 i scr⟩
    · simp only [e]
      have hmin : min (32 - (r0 + i)) (4096 - (base + i)) = 0 := by omega
      exact ⟨scr, rfl, hmin ▸ rowsOver_zero m base c0 r0 i scr⟩

/-- Rows over the screen of `s`, shown by `t`, in the terms of the claims. -/
theorem drawn_of_rowsOver {s t : State} {base c0 r0 rows : Nat} {scr : Screen}
    (h : RowsOver s.mem base c0 r0 0 rows s.screen scr) (ht : t.screen = scr) : Drawn s t base c0 r0 rows := by
  intro c r
  subst ht
  unfold Covered spriteBit State.pixel
  rw [h c.val r.val c.isLt r.isLt]
  exact ⟨fun hc => if_pos (by omega), fun hc => if_neg (by omega)⟩

end Sys2Proof.Machine
end

