-- ==== Sys2Proof/Laws/PerInstr.lean ====
section
/-! SUPPORT. A statement about every instruction as syntax, one lemma per constructor: its encoding lies in the row of the printed
opcode map that carries its mnemonic (30_encoding R55). -/

namespace Sys2Proof.Laws

/-- The word of `i` matches the row of the opcode map named by `i`'s mnemonic. -/
def InItsRow.Statement (i : Instr) : Prop :=
  ∃ e ∈ opcodeMap, e.mnemonic = i.mnemonic ∧ encode i &&& e.mask = e.bits

/-- Format `NNN`: the mask `F000` leaves the class digit. -/
theorem encNnn_mask (c : BitVec 4) (nnn : Addr12) : encNnn c nnn &&& 0xF000 = c.setWidth 16 <<< 12 := by
  ext j hj; interval_cases j <;> simp [encNnn, BitVec.getLsbD_eq_getElem]

/-- Format `XKK`: the mask `F000` leaves the class digit. -/
theorem encXkk_mask (c : BitVec 4) (x : Reg) (kk : Byte) : encXkk c x kk &&& 0xF000 = c.setWidth 16 <<< 12 := by
  ext j hj; interval_cases j <;> simp [encXkk, BitVec.getLsbD_eq_getElem]

/-- Format `XSUB`: the mask `F0FF` leaves the class digit and the low byte. -/
theorem encXsub_mask (c : BitVec 4) (x : Reg) (kk : Byte) :
    encXkk c x kk &&& 0xF0FF = c.setWidth 16 <<< 12 ||| kk.setWidth 16 := by
  ext j hj; interval_cases j <;> simp [encXkk, BitVec.getLsbD_eq_getElem]

/-- Format `XY`: the mask `F00F` leaves the class digit and the selector. -/
theorem encXy_mask (c : BitVec 4) (x y : Reg) (n : Nibble) :
    encXyn c x y n &&& 0xF00F = c.setWidth 16 <<< 12 ||| n.setWidth 16 := by
  ext j hj; interval_cases j <;> simp [encXyn, BitVec.getLsbD_eq_getElem]

/-- Format `XYN`: the mask `F000` leaves the class digit. -/
theorem encXyn_mask (c : BitVec 4) (x y : Reg) (n : Nibble) : encXyn c x y n &&& 0xF000 = c.setWidth 16 <<< 12 := by
  ext j hj; interval_cases j <;> simp [encXyn, BitVec.getLsbD_eq_getElem]

namespace InItsRow

theorem cls : Statement .cls := ⟨⟨"CLS", 0xFFFF, 0x00E0⟩, by simp [opcodeMap], rfl, rfl⟩
theorem ret : Statement .ret := ⟨⟨"RET", 0xFFFF, 0x00EE⟩, by simp [opcodeMap], rfl, rfl⟩
theorem jp (nnn : Addr12) : Statement (.jp nnn) := ⟨⟨"JP_nnn", 0xF000, 0x1000⟩, by simp [opcodeMap], rfl, encNnn_mask _ _⟩
theorem call (nnn : Addr12) : Statement (.call nnn) := ⟨⟨"CALL_nnn", 0xF000, 0x2000⟩, by simp [opcodeMap], rfl, encNnn_mask _ _⟩
theorem seImm (x : Reg) (kk : Byte) : Statement (.seImm x kk) :=
  ⟨⟨"SE_Vx_kk", 0xF000, 0x3000⟩, by simp [opcodeMap], rfl, encXkk_mask _ _ _⟩
theorem sneImm (x : Reg) (kk : Byte) : Statement (.sneImm x kk) :=
  ⟨⟨"SNE_Vx_kk", 0xF000, 0x4000⟩, by simp [opcodeMap], rfl, encXkk_mask _ _ _⟩
theorem seReg (x y : Reg) : Statement (.seReg x y) :=
  ⟨⟨"SE_Vx_Vy", 0xF00F, 0x5000⟩, by simp [opcodeMap], rfl, encXy_mask _ _ _ _⟩
theorem ldImm (x : Reg) (kk : Byte) : Statement (.ldImm x kk) :=
  ⟨⟨"LD_Vx_kk", 0xF000, 0x6000⟩, by simp [opcodeMap], rfl, encXkk_mask _ _ _⟩
theorem addImm (x : Reg) (kk : Byte) : Statement (.addImm x kk) :=
  ⟨⟨"ADD_Vx_kk", 0xF000, 0x7000⟩, by simp [opcodeMap], rfl, encXkk_mask _ _ _⟩
theorem ldReg (x y : Reg) : Statement (.ldReg x y) :=
  ⟨⟨"LD_Vx_Vy", 0xF00F, 0x8000⟩, by simp [opcodeMap], rfl, encXy_mask _ _ _ _⟩
theorem orReg (x y : Reg) : Statement (.orReg x y) :=
  ⟨⟨"OR_Vx_Vy", 0xF00F, 0x8001⟩, by simp [opcodeMap], rfl, encXy_mask _ _ _ _⟩
theorem andReg (x y : Reg) : Statement (.andReg x y) :=
  ⟨⟨"AND_Vx_Vy", 0xF00F, 0x8002⟩, by simp [opcodeMap], rfl, encXy_mask _ _ _ _⟩
theorem xorReg (x y : Reg) : Statement (.xorReg x y) :=
  ⟨⟨"XOR_Vx_Vy", 0xF00F, 0x8003⟩, by simp [opcodeMap], rfl, encXy_mask _ _ _ _⟩
theorem addReg (x y : Reg) : Statement (.addReg x y) :=
  ⟨⟨"ADD_Vx_Vy", 0xF00F, 0x8004⟩, by simp [opcodeMap], rfl, encXy_mask _ _ _ _⟩
theorem subReg (x y : Reg) : Statement (.subReg x y) :=
  ⟨⟨"SUB_Vx_Vy", 0xF00F, 0x8005⟩, by simp [opcodeMap], rfl, encXy_mask _ _ _ _⟩
theorem shr (x y : Reg) : Statement (.shr x y) :=
  ⟨⟨"SHR_Vx", 0xF00F, 0x8006⟩, by simp [opcodeMap], rfl, encXy_mask _ _ _ _⟩
theorem subnReg (x y : Reg) : Statement (.subnReg x y) :=
  ⟨⟨"SUBN_Vx_Vy", 0xF00F, 0x8007⟩, by simp [opcodeMap], rfl, encXy_mask _ _ _ _⟩
theorem shl (x y : Reg) : Statement (.shl x y) :=
  ⟨⟨"SHL_Vx", 0xF00F, 0x800E⟩, by simp [opcodeMap], rfl, encXy_mask _ _ _ _⟩
theorem sneReg (x y : Reg) : Statement (.sneReg x y) :=
  ⟨⟨"SNE_Vx_Vy", 0xF00F, 0x9000⟩, by simp [opcodeMap], rfl, encXy_mask _ _ _ _⟩
theorem ldI (nnn : Addr12) : Statement (.ldI nnn) := ⟨⟨"LD_I_nnn", 0xF000, 0xA000⟩, by simp [opcodeMap], rfl, encNnn_mask _ _⟩
theorem jpV0 (nnn : Addr12) : Statement (.jpV0 nnn) :=
  ⟨⟨"JP_V0_nnn", 0xF000, 0xB000⟩, by simp [opcodeMap], rfl, encNnn_mask _ _⟩
theorem rnd (x : Reg) (kk : Byte) : Statement (.rnd x kk) :=
  ⟨⟨"RND_Vx_kk", 0xF000, 0xC000⟩, by simp [opcodeMap], rfl, encXkk_mask _ _ _⟩
theorem drw (x y : Reg) (n : Nibble) : Statement (.drw x y n) :=
  ⟨⟨"DRW_Vx_Vy_n", 0xF000, 0xD000⟩, by simp [opcodeMap], rfl, encXyn_mask _ _ _ _⟩
theorem ldVxDt (x : Reg) : Statement (.ldVxDt x) :=
  ⟨⟨"LD_Vx_DT", 0xF0FF, 0xF007⟩, by simp [opcodeMap], rfl, encXsub_mask _ _ _⟩
theorem ldDtVx (x : Reg) : Statement (.ldDtVx x) :=
  ⟨⟨"LD_DT_Vx", 0xF0FF, 0xF015⟩, by simp [opcodeMap], rfl, encXsub_mask _ _ _⟩
theorem ldStVx (x : Reg) : Statement (.ldStVx x) :=
  ⟨⟨"LD_ST_Vx", 0xF0FF, 0xF018⟩, by simp [opcodeMap], rfl, encXsub_mask _ _ _⟩
theorem addI (x : Reg) : Statement (.addI x) :=
  ⟨⟨"ADD_I_Vx", 0xF0FF, 0xF01E⟩, by simp [opcodeMap], rfl, encXsub_mask _ _ _⟩

end InItsRow

end Sys2Proof.Laws
end

