-- ==== Sys2Proof/Tests/Slice0.lean ====
section
/-! SUPPORT. Tests: expected results are the spec's own vectors (95_test_vectors) or worked by hand from its encodings and rules;
each says which. Then, for every statement with hypotheses, a concrete state and operands that meet them. -/

namespace Sys2Proof.Tests

open Sys2Proof.Machine

/-! ## Well-formedness refuses (30_encoding R51, R53) -/

theorem test_wf_refuses_reg : WellFormed.reg 16 = none ∧ WellFormed.reg 15 = some 15 := by decide
theorem test_wf_refuses_imm8 : WellFormed.imm8 256 = none ∧ WellFormed.imm8 255 = some 0xFF := by decide
theorem test_wf_refuses_addr12 : WellFormed.addr12 4096 = none ∧ WellFormed.addr12 4095 = some 0xFFF := by decide
theorem test_wf_refuses_nibble : WellFormed.nibble 16 = none ∧ WellFormed.nibble 15 = some 0xF := by decide

/-! ## Decoding: one word a constructor, written out bit by bit from R55 (T-DEC for some) -/

theorem test_decode_cls : decodeWord 0b0000000011100000 = .ok .cls := by decide
theorem test_decode_ret : decodeWord 0b0000000011101110 = .ok .ret := by decide
theorem test_decode_jp : decodeWord 0b0001101010111100 = .ok (.jp 0xABC) := by decide
theorem test_decode_call : decodeWord 0b0010010001010110 = .ok (.call 0x456) := by decide
theorem test_decode_seImm : decodeWord 0b0011001100101010 = .ok (.seImm 3 0x2A) := by decide
theorem test_decode_sneImm : decodeWord 0b0100010111111111 = .ok (.sneImm 5 0xFF) := by decide
theorem test_decode_seReg : decodeWord 0b0101000100100000 = .ok (.seReg 1 2) := by decide
theorem test_decode_ldImm : decodeWord 0b0110101000101111 = .ok (.ldImm 10 0x2F) := by decide
theorem test_decode_addImm : decodeWord 0b0111001100001010 = .ok (.addImm 3 10) := by decide
theorem test_decode_ldReg : decodeWord 0b1000101010110000 = .ok (.ldReg 10 11) := by decide
theorem test_decode_orReg : decodeWord 0b1000000100100001 = .ok (.orReg 1 2) := by decide
theorem test_decode_andReg : decodeWord 0b1000000100100010 = .ok (.andReg 1 2) := by decide
theorem test_decode_xorReg : decodeWord 0b1000000100100011 = .ok (.xorReg 1 2) := by decide
theorem test_decode_addReg : decodeWord 0b1000101010110100 = .ok (.addReg 10 11) := by decide
theorem test_decode_subReg : decodeWord 0b1000000100100101 = .ok (.subReg 1 2) := by decide
theorem test_decode_shr : decodeWord 0b1000000111110110 = .ok (.shr 1 15) := by decide
theorem test_decode_subnReg : decodeWord 0b1000000100100111 = .ok (.subnReg 1 2) := by decide
theorem test_decode_shl : decodeWord 0b1000000100101110 = .ok (.shl 1 2) := by decide
theorem test_decode_sneReg : decodeWord 0b1001000100100000 = .ok (.sneReg 1 2) := by decide
theorem test_decode_ldI : decodeWord 0b1010001000001100 = .ok (.ldI 0x20C) := by decide
theorem test_decode_jpV0 : decodeWord 0b1011001000000100 = .ok (.jpV0 0x204) := by decide
theorem test_decode_rnd : decodeWord 0b1100000100001111 = .ok (.rnd 1 0x0F) := by decide
theorem test_decode_drw : decodeWord 0b1101000100100101 = .ok (.drw 1 2 5) := by decide
theorem test_decode_ldVxDt : decodeWord 0b1111001000000111 = .ok (.ldVxDt 2) := by decide
theorem test_decode_ldDtVx : decodeWord 0b1111001000010101 = .ok (.ldDtVx 2) := by decide
theorem test_decode_ldStVx : decodeWord 0b1111010000011000 = .ok (.ldStVx 4) := by decide
theorem test_decode_addI : decodeWord 0b1111010100011110 = .ok (.addI 5) := by decide

/-- T-ILL-1 to T-ILL-5: illegal class 0 words. -/
theorem test_illegal_zero_class : decodeWord 0x0000 = .error .zeroClass ∧ decodeWord 0x00E1 = .error .zeroClass ∧
    decodeWord 0x00EF = .error .zeroClass ∧ decodeWord 0x01E0 = .error .zeroClass ∧ decodeWord 0x0FFF = .error .zeroClass := by
  decide
/-- T-ILL-6 to T-ILL-8: skips with a low digit. -/
theorem test_illegal_skips : decodeWord 0x5121 = .error .skipNibble ∧ decodeWord 0x512F = .error .skipNibble ∧
    decodeWord 0x9ABC = .error .skipNibble := by decide
/-- T-ILL-9 to T-ILL-13: class 8 selectors without an instruction, class E. -/
theorem test_illegal_selectors : decodeWord 0x8128 = .error .aluSelector ∧ decodeWord 0x812D = .error .aluSelector ∧
    decodeWord 0x812F = .error .aluSelector ∧ decodeWord 0xE09E = .error .classE ∧ decodeWord 0xE1A1 = .error .classE := by decide
/-- T-ILL-14 to T-ILL-20: class F low bytes without an instruction. -/
theorem test_illegal_f : decodeWord 0xF00A = .error .fSub ∧ decodeWord 0xF129 = .error .fSub ∧
    decodeWord 0xF233 = .error .fSub ∧ decodeWord 0xF465 = .error .fSub ∧ decodeWord 0xF01F = .error .fSub := by decide

/-- Bytes as they lie in memory: D1 first, then 25 (T-DEC-1); the byte after them is left. -/
theorem test_decode_bytes : decodeBytes [0xD1, 0x25, 0x77] = some (.ok (.drw 1 2 5), [0x77]) ∧ decodeBytes [0xD1] = none := by
  decide

/-- No two rows of the opcode map claim one word: where two masks overlap, the fixed bits differ (R54). -/
theorem test_rows_disjoint :
    opcodeMap.Pairwise (fun a b => a.bits &&& (a.mask &&& b.mask) ≠ b.bits &&& (a.mask &&& b.mask)) := by decide

/-! ## A small machine -/

/-- The reset state with two registers set. -/
def two (x : Reg) (a : Byte) (y : Reg) (b : Byte) : State := (State.reset.setReg x a).setReg y b

/-- The next state, where there is one. -/
def after : Host.Outcome State Fault Refusal → Option State
  | .next s => some s
  | _ => none

/-- What a test looks at in the next state. -/
def see {α : Type} (o : Host.Outcome State Fault Refusal) (f : State → α) : Option α := (after o).map f

/-- The reset state with the sprite bytes of the display vectors at 0x300 and `I` there. -/
def sprite (a : Nat) (bs : List Byte) : State := (State.reset.setMem (Memory.copy [] a bs)).setI (BitVec.ofNat 16 a)

/-! ## Control transfer (T-CF) -/

theorem test_jp : see (exec (.jp 0xABC) State.reset) (·.pc) = some 0x0ABC := by decide
/-- T-CF-3. -/
theorem test_call : see (exec (.call 0x456) (State.reset.setPc 0x236)) (fun t => (t.sp, t.slot 1, t.pc)) =
    some (1, 0x0236, 0x0456) := by decide
/-- T-CF-5. -/
theorem test_call_full : see (exec (.call 0x400) ((State.reset.setPc 0x302).setSp 15)) (fun t => (t.sp, t.fault, t.pc)) =
    some (15, some .stackOverflow, 0x302) := by decide
/-- T-CF-6. -/
theorem test_ret : see (exec .ret ((State.reset.setSlot 3 0x208).setSp 3)) (fun t => (t.pc, t.sp, t.slot 3)) =
    some (0x208, 2, 0x208) := by decide
/-- T-CF-7. -/
theorem test_ret_empty : see (exec .ret (State.reset.setPc 0x202)) (fun t => (t.pc, t.sp, t.fault)) =
    some (0x202, 0, some .stackUnderflow) := by decide
/-- T-CF-8, T-CF-9. -/
theorem test_seImm : see (exec (.seImm 5 0xFF) (two 5 0xFF 0 0)) (·.pc) = some 0x202 ∧
    see (exec (.seImm 5 0xFF) (two 5 0xFE 0 0)) (·.pc) = some 0x200 := by decide
/-- T-CF-10, T-CF-11. -/
theorem test_sneImm : see (exec (.sneImm 5 0xFF) (two 5 0xFF 0 0)) (·.pc) = some 0x200 ∧
    see (exec (.sneImm 5 0xFF) (two 5 0x00 0 0)) (·.pc) = some 0x202 := by decide
/-- T-CF-12, T-CF-14. -/
theorem test_seReg : see (exec (.seReg 10 10) (two 10 0x33 0 0)) (·.pc) = some 0x202 ∧
    see (exec (.seReg 1 15) (two 1 1 15 1)) (·.pc) = some 0x202 := by decide
/-- T-CF-13, T-CF-15. -/
theorem test_sneReg : see (exec (.sneReg 10 10) (two 10 0x33 0 0)) (·.pc) = some 0x200 ∧
    see (exec (.sneReg 1 2) (two 1 1 2 2)) (·.pc) = some 0x202 := by decide
/-- T-CF-16. -/
theorem test_jpV0 : see (exec (.jpV0 0xFFF) (two 0 0xFF 1 0)) (·.pc) = some 0x10FE := by decide

/-! ## Load, arithmetic, logic (T-AL) -/

theorem test_ldImm : see (exec (.ldImm 15 0x55) State.reset) (·.reg 15) = some 0x55 := by decide
/-- T-AL-2. -/
theorem test_addImm_wraps : see (exec (.addImm 2 1) (two 2 0xFF 15 9)) (fun t => (t.reg 2, t.reg 15)) = some (0, 9) := by
  decide
/-- T-AL-5. -/
theorem test_ldReg : see (exec (.ldReg 10 11) (two 11 0x99 15 5)) (fun t => (t.reg 10, t.reg 15)) = some (0x99, 5) := by
  decide
/-- T-AL-6. -/
theorem test_orReg : see (exec (.orReg 1 2) (two 1 0x0F 2 0xF0)) (fun t => (t.reg 1, t.reg 2)) = some (0xFF, 0xF0) := by
  decide
/-- T-AL-7. -/
theorem test_andReg : see (exec (.andReg 1 2) (two 1 0x3C 2 0x0F)) (·.reg 1) = some 0x0C := by decide
/-- T-AL-8. -/
theorem test_xorReg : see (exec (.xorReg 1 2) (two 1 0xFF 2 0x0F)) (·.reg 1) = some 0xF0 := by decide
/-- T-AL-13 (the old `VF` is the addend). -/
theorem test_addReg : see (exec (.addReg 0 15) (two 0 10 15 250)) (fun t => (t.reg 0, t.reg 15)) = some (4, 1) := by
  decide
/-- T-AL-14 (`x = 15`: the carry stands). -/
theorem test_addReg_vf : see (exec (.addReg 15 1) (two 15 200 1 100)) (·.reg 15) = some 1 := by decide
/-- T-AL-18. -/
theorem test_subReg : see (exec (.subReg 1 2) (two 1 0 2 1)) (fun t => (t.reg 1, t.reg 15)) = some (0xFF, 0) := by
  decide
/-- T-AL-19, T-AL-20 (`x = 15`: the flag stands). -/
theorem test_subReg_vf : see (exec (.subReg 15 1) (two 15 5 1 3)) (·.reg 15) = some 1 ∧
    see (exec (.subReg 15 1) (two 15 3 1 5)) (·.reg 15) = some 0 := by decide
/-- T-AL-22 (`y` ignored). -/
theorem test_shr : see (exec (.shr 1 2) (two 1 0x01 2 0xEE)) (fun t => (t.reg 1, t.reg 15, t.reg 2)) = some (0, 1, 0xEE) := by
  decide
/-- T-AL-24, T-AL-25 (`x = 15`: the shifted value stands). -/
theorem test_shr_vf : see (exec (.shr 15 0) (two 15 0x07 1 0)) (·.reg 15) = some 0x03 ∧
    see (exec (.shr 15 0) (two 15 0x06 1 0)) (·.reg 15) = some 0x03 := by decide
/-- T-AL-26, T-AL-27. -/
theorem test_subnReg : see (exec (.subnReg 1 2) (two 1 5 2 7)) (fun t => (t.reg 1, t.reg 15)) = some (2, 1) ∧
    see (exec (.subnReg 1 2) (two 1 7 2 5)) (fun t => (t.reg 1, t.reg 15)) = some (0xFE, 0) := by decide
/-- T-AL-30. -/
theorem test_shl : see (exec (.shl 1 2) (two 1 0x7F 2 0xEE)) (fun t => (t.reg 1, t.reg 15)) = some (0xFE, 0) := by
  decide
/-- T-AL-32 (`x = 15`: the shifted value stands). -/
theorem test_shl_vf : see (exec (.shl 15 0) (two 15 0x81 1 0)) (·.reg 15) = some 0x02 := by decide
/-- T-AL-33. -/
theorem test_ldI : see (exec (.ldI 0xFFF) State.reset) (·.i) = some 0x0FFF := by decide
/-- T-AL-34, T-AL-35. -/
theorem test_addI : see (exec (.addI 0) ((two 0 1 15 7).setI 0x0FFF)) (fun t => (t.i, t.reg 15)) = some (0x1000, 7) ∧
    see (exec (.addI 0) ((two 0 0xFF 15 7).setI 0xFF00)) (·.i) = some 0xFFFF := by decide
/-- T-AL-39: whatever the byte, the mask 0 gives 0. -/
theorem test_rnd_mask_zero (s : State) : see (exec (.rnd 1 0) s) (·.reg 1) = some 0 := by
  simp [see, after, exec, execRnd]

/-! ## Display (T-DR, T-DW) -/

/-- S8: the byte 3C at (10, 0), twice. -/
theorem test_draw_row_twice :
    (match drawRow clearScreen 10 0 0x3C with
      | .ok (scr, ch) => (ch, (scr[0].toList.drop 9).take 10, (drawRow scr 10 0 0x3C).toOption.map (·.2))
      | .error _ => (false, [], none)) =
    (true, [false, false, false, true, true, true, true, false, false, false], some false) := by decide
/-- T-DR-3, T-DR-4: clipping at the right edge. -/
theorem test_draw_row_clips : ((drawRow clearScreen 60 5 0xFF).toOption.map fun p => (p.2, p.1[5].toList.drop 59, p.1[5].toList.take 4)) =
      some (true, [false, true, true, true, true], [false, false, false, false]) ∧
    (drawRow clearScreen 60 5 0x0F).toOption.map (·.2) = some false := by decide
/-- T-DR-6, T-DR-9: a column off the right edge draws nothing, a row off the bottom faults first. -/
theorem test_draw_row_edges : (drawRow clearScreen 64 0 0xFF).toOption.map (·.2) = some false ∧
    (drawRow clearScreen 200 32 0xFF).toOption.map (·.2) = none := by decide
/-- T-DW-11: `x = 15`, the column is the old `VF`. -/
theorem test_drw_vf_column : see (exec (.drw 15 1 0) ((sprite 0x300 [0xFF]).setReg 15 3))
    (fun t => ([t.pixel 2 0, t.pixel 3 0, t.pixel 10 0, t.pixel 11 0], t.reg 15, t.fault)) =
    some ([false, true, true, false], 1, none) := by decide
/-- T-DW-4: rows 30 and 31 drawn, row 32 faults, `VF` not written. -/
theorem test_drw_off_the_bottom : see (exec (.drw 0 1 2) (((sprite 0x300 [0xFF, 0x81, 0xFF]).setReg 1 30).setReg 15 9))
    (fun t => ([t.pixel 3 30, t.pixel 0 31, t.pixel 1 31, t.pixel 7 31], t.reg 15, t.fault)) =
    some ([true, true, false, true], 9, some .memoryOutOfBounds) := by decide
/-- T-DW-13. -/
theorem test_cls : see (exec .cls ((State.reset.setScreen (clearScreen.set 3 (Vector.replicate 64 true))).setReg 15 7))
    (fun t => (t.pixel 5 3, t.reg 15)) = some (false, 7) := by decide

/-! ## Timers (T-TM) -/

/-- T-TM-2. -/
theorem test_timer_set : timerExpiry 5000 100 = 6666 + 2 / 3 := by decide +kernel
/-- T-TM-3, T-TM-4, T-TM-6, T-TM-7. -/
theorem test_timer_reads : remainingTicks (timerExpiry 5000 100) 5000 = 100 ∧ remainingTicks (timerExpiry 5000 100) 5001 = 99 ∧
    remainingTicks (timerExpiry 5000 100) 5017 = 98 ∧ remainingTicks (timerExpiry 5000 100) 5100 = 94 := by decide +kernel
/-- T-TM-8 to T-TM-10. -/
theorem test_timer_end : remainingTicks (timerExpiry 5000 100) 6650 = 1 ∧ remainingTicks (timerExpiry 5000 100) 6651 = 0 ∧
    remainingTicks (timerExpiry 5000 100) 6667 = 0 := by decide +kernel
/-- T-TM-11, T-TM-14 (the snapshot's count). -/
theorem test_timer_ends_of_range : timerExpiry 0 255 = 4250 ∧ remainingTicks (timerExpiry 0 255) 0 = 255 ∧
    remainingTicks (timerExpiry 0 30) 250 = 15 := by decide +kernel
/-- T-TM-1: an `Fx07` right after reset gives 0, whatever the clock. -/
theorem test_ldVxDt_reset : see (exec (.ldVxDt 3) State.reset) (·.reg 3) = some 0 := by
  have h : (0 : Rat) ≤ (sampleNow State.reset).1 := by
    obtain ⟨now, e, hle⟩ := sampleNow_spec State.reset
    rw [e]; exact hle
  have h0 : remainingTicks State.reset.dt (sampleNow State.reset).1 = 0 := if_pos h
  simp [see, after, exec, execLdVxDt, h0]
/-- The setters complete, keep `V[x]`, and leave the other timer alone. -/
theorem test_set_timers : see (exec (.ldDtVx 2) (two 2 100 0 0)) (fun t => (t.reg 2, t.st, t.clockDraws)) = some (100, 0, 1) ∧
    see (exec (.ldStVx 2) (two 2 100 0 0)) (fun t => (t.reg 2, t.dt, t.clockDraws)) = some (100, 0, 1) := by decide

/-! ## The step, memory, the ports -/

/-- T-ST-1. -/
theorem test_step : see (step (State.reset.withFetchWord 16 0x6107)) (fun t => (t.reg 1, t.pc, t.fault)) =
    some (7, 0x202, none) := by decide
/-- T-ST-2: an odd `pc` is an ordinary fetch. -/
theorem test_step_odd : see (step ((State.reset.setPc 0x201).withFetchWord 16 0x6209)) (fun t => (t.reg 2, t.pc)) =
    some (9, 0x203) := by decide
/-- T-ST-4. -/
theorem test_step_fetch_fault : see (step (State.reset.setPc 0xFFF)) (fun t => (t.pc, t.fault)) =
    some (0xFFF, some .memoryOutOfBounds) := by decide
/-- T-ST-7. -/
theorem test_step_zeros : see (step (State.reset.setPc 0x050)) (fun t => (t.pc, t.fault)) =
    some (0x052, some .unimplementedOpcode) := by decide
/-- T-ST-6. -/
theorem test_step_faulted : see (step (State.reset.setFault .stackOverflow)) (fun t => (t.pc, t.fault)) =
    some (0x200, some .stackOverflow) := by decide
/-- The host's table word, big-endian in memory: `D125`. -/
theorem test_table_word : decodeTableWord 16 0xD125 = some (.drw 1 2 5) ∧
    (State.reset.withFetchWord 16 0xD125).mem = [(512, 0xD1), (513, 0x25)] := by decide
/-- R43: digit 15 is at 75; 16 is no digit. -/
theorem test_glyph_address : glyphAddress 15 = 75 ∧ glyphAddress 16 = 0 := by decide
/-- R45: an image of two bytes. -/
theorem test_boot : (boot [0x12, 0x00]).toOption.map (fun s => (s.mem.read 512, s.mem.read 513, s.mem.read 514, s.pc)) =
    some (0x12, 0, 0, 512) := by decide

/-! ## Witnesses: the hypotheses of the statements can be met -/

theorem test_witness_EncodeDecode : decodeWord 0xD125 = .ok (.drw 1 2 5) := by decide
theorem test_witness_OpcodeMapRows : (⟨"SHL_Vx", 0xF00F, 0x800E⟩ : OpcodeRow) ∈ opcodeMap := by decide
/-- At the last address a fetch can start from. -/
theorem test_witness_StepRunsDecoded : ((State.reset.setPc 4094).withFetchWord 16 0x00E0).fault = none ∧
    ((State.reset.setPc 4094).withFetchWord 16 0x00E0).pc.toNat = 4094 ∧
    decodeWord (BitVec.ofNat 16 (wordAt ((State.reset.setPc 4094).withFetchWord 16 0x00E0))) = .ok .cls := by decide
/-- Both sides of the bound, 4094 and 4095. -/
theorem test_witness_FetchReadsOrFaults : (State.reset.setPc 4094).pc.toNat ≤ 4094 ∧ 4095 ≤ (State.reset.setPc 4095).pc.toNat ∧
    (State.reset.setPc 4095).fault = none := by decide
theorem test_witness_IllegalWordStep : State.reset.fault = none ∧ State.reset.pc.toNat ≤ 4094 ∧
    decodeWord (BitVec.ofNat 16 (wordAt State.reset)) = .error .zeroClass := by decide
theorem test_witness_FaultedRunStays : (State.reset.setFault .stackOverflow).fault = some .stackOverflow := by decide
/-- The step from reset, whose memory holds zeros, raises a fault; an in-range `RET` on an empty stack another. -/
theorem test_witness_FaultKindsExactly : State.reset.fault = none ∧
    (∃ t, step State.reset = .next t) ∧ expectedFault State.reset = some .unimplementedOpcode ∧
    expectedFault (State.reset.withFetchWord 16 0x00EE) = some .stackUnderflow ∧
    expectedFault ((State.reset.setSp 15).withFetchWord 16 0x2400) = some .stackOverflow ∧
    expectedFault ((State.reset.setSp 14).withFetchWord 16 0x2400) = none ∧
    expectedFault ((State.reset.setReg 1 31).withFetchWord 16 0xD010) = none ∧
    expectedFault ((State.reset.setReg 1 31).withFetchWord 16 0xD011) = some .memoryOutOfBounds ∧
    expectedFault (State.reset.setPc 4095) = some .memoryOutOfBounds := by
  refine ⟨by decide, ⟨_, rfl⟩, ?_⟩
  decide
/-- A fault in `Exec`, a fault in `Fetch`, and one in `Dxyn`. -/
theorem test_witness_FaultsArePrecise : see (step State.reset) (·.fault) = some (some .unimplementedOpcode) ∧
    see (step (State.reset.setPc 4095)) (·.fault) = some (some .memoryOutOfBounds) ∧
    see (step ((State.reset.setReg 1 32).withFetchWord 16 0xD010)) (·.fault) = some (some .memoryOutOfBounds) := by
  decide
theorem test_witness_IdleStaysIdle : IdleAt (State.reset.withFetchWord 16 0x1200) 0x200 := by
  unfold IdleAt; decide
/-- Both clauses, at the ends of the stack pointer's range. -/
theorem test_witness_RetEffect : (State.reset.setSp 1).sp.val ≠ 0 ∧ (State.reset.setSp 15).sp.val ≠ 0 ∧ State.reset.sp.val = 0 := by
  decide
theorem test_witness_CallEffect : State.reset.sp.val ≠ 15 ∧ (State.reset.setSp 14).sp.val ≠ 15 ∧ (State.reset.setSp 15).sp.val = 15 := by
  decide
/-- The state after the call itself keeps `sp` and the slot. -/
theorem test_witness_CallThenRet : State.reset.sp.val ≠ 15 ∧
    ∃ t : State, exec (.call 0x456) State.reset = .next t ∧ t.sp = t.sp ∧ t.slot t.sp = t.slot t.sp :=
  ⟨by decide, _, rfl, rfl, rfl⟩
/-- For `AddRegEffect`, `SubRegEffect`, `SubnRegEffect`, `ShrEffect`, `ShlEffect`: a destination that is not `VF`. -/
theorem test_witness_destination_not_vf : (14 : Reg) ≠ Reg.vf := by decide
/-- T-AL-35 and T-AL-36: the sums 0xFFFF and 0x10000. -/
theorem test_witness_AddIEffect :
    ((State.reset.setReg 0 0xFF).setI 0xFF00).i.toNat + (((State.reset.setReg 0 0xFF).setI 0xFF00).reg 0).toNat ≤ 0xFFFF ∧
    0xFFFF < ((State.reset.setReg 0 0xFF).setI 0xFF01).i.toNat + (((State.reset.setReg 0 0xFF).setI 0xFF01).reg 0).toNat := by
  decide
theorem test_witness_DrawRowPixels : (31 : Nat) < 32 ∧ 32 ≤ (32 : Nat) := by decide
/-- Both bounds met with equality: row 31 and address 4095. -/
theorem test_witness_DrwCompletes :
    (((State.reset.setReg 1 31).setI 4095).reg 1).toNat + (0 : Nibble).toNat ≤ 31 ∧
    ((State.reset.setReg 1 31).setI 4095).i.toNat + (0 : Nibble).toNat ≤ 4095 := by decide
/-- Each bound just violated: row 32, address 4096. -/
theorem test_witness_DrwOutOfBounds :
    31 < ((State.reset.setReg 1 31).reg 1).toNat + (1 : Nibble).toNat ∧
    4095 < (State.reset.setI 4095).i.toNat + (1 : Nibble).toNat := by decide
theorem test_witness_DrwAgainChangesNothing : see (exec (.drw 0 1 0) (sprite 0x300 [0xFF]))
    (fun t => (t.reg 0 == (sprite 0x300 [0xFF]).reg 0, t.reg 1 == (sprite 0x300 [0xFF]).reg 1, t.reg 15)) =
    some (true, true, 1) := by decide
theorem test_witness_RemainingTicksFormula : (50 / 3 : Rat) ≤ 50 / 3 ∧ (16 : Rat) < 50 / 3 := by norm_num
theorem test_witness_RemainingTicksFalls : (0 : Rat) ≤ 1 := by norm_num
/-- One tick set at 0: read at once, within the tick, and after exactly one tick. -/
theorem test_witness_SetThenRemaining : (0 : Rat) ≤ 0 ∧ (0 : Rat) + ((1 : Byte).toNat : Rat) * 50 / 3 ≤ 50 / 3 ∧
    (16 : Rat) < 0 + 50 / 3 := by decide +kernel
/-- The state after the set itself. -/
theorem test_witness_DelaySetThenRead : ∃ t, exec (.ldDtVx 2) (two 2 100 0 0) = .next t ∧ t.dt = t.dt ∧ t.clockLast ≤ t.clockLast :=
  ⟨_, rfl, rfl, le_refl _⟩
/-- For `ClockNeverDecreases` and `RunKeepsMemory`: a run of one step, of a jump to itself. -/
theorem test_witness_run : ∃ t, core.run 1 (State.reset.withFetchWord 16 0x1200) = .next t := ⟨_, rfl⟩
/-- R20, D7: a snapshot right after reset shows both timers expired, whatever the clock. -/
theorem test_snapshot_reset : (snapshot State.reset).1.dtTicks = 0 ∧ (snapshot State.reset).1.stTicks = 0 := by
  obtain ⟨first, second, h1, h2, -, h⟩ := snapshot_spec State.reset
  have e : ∀ now : Rat, 0 ≤ now → remainingTicks 0 now = 0 := fun now h => if_pos h
  rcases h with ⟨hd, hs⟩ | ⟨hd, hs⟩ <;> rw [hd, hs] <;> exact ⟨e _ (by first | exact h1 | exact le_trans h1 h2),
    e _ (by first | exact h1 | exact le_trans h1 h2)⟩
/-- An expiry equal to the last sample, for both timers, and a load that starts the machine. -/
theorem test_witness_SnapshotOfExpiredTimers : State.reset.dt ≤ State.reset.clockLast ∧
    State.reset.st ≤ State.reset.clockLast ∧ ∃ s, boot [0x12, 0x00] = .ok s :=
  ⟨le_refl _, le_refl _, _, rfl⟩
/-- The state after the snapshot itself, with both timers running. -/
theorem test_witness_SnapshotCountsFall : ∃ s u : State, (snapshot s).2.clockLast ≤ u.clockLast ∧ u.dt = s.dt ∧ u.st = s.st ∧
    s.clockLast < s.dt ∧ s.clockLast < s.st :=
  ⟨(State.reset.setDt 500).setSt 900, (snapshot ((State.reset.setDt 500).setSt 900)).2, le_refl _, rfl, rfl, by decide, by decide⟩
theorem test_witness_MemReadBounds : (4095 : Nat) ≤ 4095 ∧ 4096 ≤ (4096 : Nat) ∧ (4094 : Nat) ≤ 4094 := by decide
theorem test_witness_MemWriteBounds : Memory.wf [(600, 1)] = true ∧ 4095 ≤ 4095 ∧ 4096 ≤ 4096 := by decide
theorem test_witness_ResetState : 80 ≤ 80 ∧ (0 : Rat) ≤ 0 := ⟨le_refl _, le_refl _⟩
/-- The largest image, and one byte more. -/
theorem test_witness_BootPlacesTheImage : (List.replicate 3584 (0xFF : Byte)).length ≤ 3584 ∧
    0 < (List.replicate 3584 (0xFF : Byte)).length ∧ 3584 < (List.replicate 3585 (0xFF : Byte)).length := by
  simp only [List.length_replicate]; omega
theorem test_witness_GlyphAddressInTable : 15 ≤ 15 ∧ 15 * 5 + (4 : Fin 5).val < 80 ∧ 15 < 16 := by decide
/-- A state of the invariant with a return address held and a byte of memory written, and a step of it. -/
theorem test_witness_StepKeepsInv : Inv (((State.reset.setSp 1).setSlot 1 0x204).withFetchWord 16 0x00EE) ∧
    ∃ t, step (((State.reset.setSp 1).setSlot 1 0x204).withFetchWord 16 0x00EE) = .next t := by
  refine ⟨⟨by decide, by decide, by decide, by decide, by decide, by decide,
    by decide⟩, _, rfl⟩
theorem test_witness_WrittenOnlyByItsWriters : ∃ t, exec (.drw 1 2 5) State.reset = .next t := ⟨_, rfl⟩
theorem test_witness_SoundTimerIsNotRead : ∃ t, step (State.reset.withFetchWord 16 0xF418) = .next t := ⟨_, rfl⟩
/-- Slot 0, and a slot above `sp`, which the `CALL` at `pc` then writes. -/
theorem test_witness_UnusedSlotsAreNotRead : (0 : Fin 16).val = 0 ∧
    (State.reset.withFetchWord 16 0x2456).sp.val < (1 : Fin 16).val ∧
    ∃ t, step (State.reset.withFetchWord 16 0x2456) = .next t := ⟨rfl, by decide, _, rfl⟩

end Sys2Proof.Tests
end

namespace Sys2Proof.Machine

/-! # Who writes what, the invariant, what is not read, and the snapshot (10_state) -/

/-! ## The instructions that can end in more than one way -/

/-- `RET` (R80) with a return address held: `pc` takes it and `sp` falls by one. -/
theorem exec_ret_of_held {s : State} {below : Fin 16} (h : s.sp.val = below.val + 1) :
    exec .ret s = .next ((s.setSp below).setPc (s.slot s.sp)) := by
  rcases s.pop_cases with ⟨below', h', e⟩ | ⟨h', -⟩
  · cases Fin.ext (Nat.succ.inj (h.symm.trans h'))
    simp only [exec, execRet, e]
  · omega

/-- `RET` (R80) on the empty stack: only the latch is set. -/
theorem exec_ret_of_empty {s : State} (h : s.sp.val = 0) : exec .ret s = .next (s.setFault .stackUnderflow) := by
  rcases s.pop_cases with ⟨_, h', -⟩ | ⟨-, e⟩
  · omega
  · simp only [exec, execRet, e, raise]

/-- `CALL` (R82) below the top: `sp` rises by one, its slot takes `pc`, and `pc` the target. -/
theorem exec_call_of_room (nnn : Addr12) {s : State} {top : Fin 16} (h : top.val = s.sp.val + 1) :
    exec (.call nnn) s = .next (((s.setSp top).setSlot top s.pc).setPc (addrOperand nnn)) := by
  rcases s.push_cases s.pc with ⟨top', h', e⟩ | ⟨h', -⟩
  · cases Fin.ext (h.trans h'.symm)
    simp only [exec, execCall, e]
  · omega

/-- `CALL` (R82) at the top: only the latch is set. -/
theorem exec_call_of_full (nnn : Addr12) {s : State} (h : s.sp.val = 15) :
    exec (.call nnn) s = .next (s.setFault .stackOverflow) := by
  rcases s.push_cases s.pc with ⟨_, h', -⟩ | ⟨-, e⟩
  · omega
  · simp only [exec, execCall, e, raise]

/-- The stack is empty, or `sp` is one more than some index. -/
theorem State.sp_empty_or_held (s : State) : s.sp.val = 0 ∨ ∃ below : Fin 16, s.sp.val = below.val + 1 := by
  rcases s.pop_cases with ⟨below, h, -⟩ | ⟨h, -⟩
  · exact .inr ⟨below, h⟩
  · exact .inl h

/-- The stack is full, or there is an index one above `sp`. -/
theorem State.sp_full_or_room (s : State) : s.sp.val = 15 ∨ ∃ top : Fin 16, top.val = s.sp.val + 1 := by
  rcases s.push_cases s.pc with ⟨top, h, -⟩ | ⟨h, -⟩
  · exact .inr ⟨top, h⟩
  · exact .inl h

/-- `RET`, both ways it can end. -/
theorem exec_ret_cases (s : State) :
    (∃ below : Fin 16, s.sp.val = below.val + 1 ∧ exec .ret s = .next ((s.setSp below).setPc (s.slot s.sp))) ∨
    (s.sp.val = 0 ∧ exec .ret s = .next (s.setFault .stackUnderflow)) := by
  rcases s.sp_empty_or_held with h | ⟨below, h⟩
  · exact .inr ⟨h, exec_ret_of_empty h⟩
  · exact .inl ⟨below, h, exec_ret_of_held h⟩

/-- `CALL`, both ways it can end. -/
theorem exec_call_cases (nnn : Addr12) (s : State) :
    (∃ top : Fin 16, top.val = s.sp.val + 1 ∧
      exec (.call nnn) s = .next (((s.setSp top).setSlot top s.pc).setPc (addrOperand nnn))) ∨
    (s.sp.val = 15 ∧ exec (.call nnn) s = .next (s.setFault .stackOverflow)) := by
  rcases s.sp_full_or_room with h | ⟨top, h⟩
  · exact .inr ⟨h, exec_call_of_full nnn h⟩
  · exact .inl ⟨top, h, exec_call_of_room nnn h⟩

/-- The one kind a sprite can fault with (43_display R114). -/
theorem drawSprite_error {s : State} {x y : Reg} {n : Nibble} {scr : Screen} {k : FaultKind}
    (h : drawSprite s x y n = (scr, .error k)) : k = .memoryOutOfBounds := by
  unfold drawSprite at h
  by_cases hin : (s.reg y).toNat + 0 + rowCount n ≤ 32 ∧ s.i.toNat + 0 + rowCount n ≤ 4096
  · obtain ⟨_, _, e, -, -⟩ := drawRows_ok s.mem _ (s.reg x).toNat _ _ 0 s.screen false hin.1 hin.2
    cases e.symm.trans h
  · obtain ⟨_, e, -⟩ := drawRows_error s.mem s.i.toNat (s.reg x).toNat (s.reg y).toNat (rowCount n) 0 s.screen false
      (by omega) (Nat.succ_pos _)
    cases e.symm.trans h
    rfl

/-- `DRW` (R114) whose rows are all in range: the drawn screen, then the flag. -/
theorem exec_drw_of_ok {s : State} {x y : Reg} {n : Nibble} {scr : Screen} {any : Bool}
    (h : drawSprite s x y n = (scr, .ok any)) :
    exec (.drw x y n) s = .next ((s.setScreen scr).setReg Reg.vf (changeFlag any)) := by
  simp only [exec, execDrw, h]

/-- `DRW` (R114) that meets a row or a byte out of range: the screen as far as it was drawn, then the latch. -/
theorem exec_drw_of_error {s : State} {x y : Reg} {n : Nibble} {scr : Screen} {k : FaultKind}
    (h : drawSprite s x y n = (scr, .error k)) :
    exec (.drw x y n) s = .next ((s.setScreen scr).setFault k) := by
  simp only [exec, execDrw, h, raise]

/-- `DRW`, both ways it can end. -/
theorem exec_drw_cases (x y : Reg) (n : Nibble) (s : State) :
    (∃ scr any, drawSprite s x y n = (scr, .ok any) ∧
      exec (.drw x y n) s = .next ((s.setScreen scr).setReg Reg.vf (changeFlag any))) ∨
    (∃ scr, drawSprite s x y n = (scr, .error .memoryOutOfBounds) ∧
      exec (.drw x y n) s = .next ((s.setScreen scr).setFault .memoryOutOfBounds)) := by
  rcases h : drawSprite s x y n with ⟨scr, k | any⟩
  · cases drawSprite_error h
    exact .inr ⟨scr, rfl, exec_drw_of_error h⟩
  · exact .inl ⟨scr, any, rfl, exec_drw_of_ok h⟩

/-- `ADD I,Vx` (R102): the sum, where it fits or the open parameter says to wrap; else the model's own fault. -/
theorem exec_addI (x : Reg) (s : State) :
    exec (.addI x) s =
      if s.i.toNat + (s.reg x).toNat ≤ 0xFFFF ∨ Config.iAddOverflow = .wrap then .next (s.setI (s.i + zext16 (s.reg x)))
      else .fault .iAddOverflow := by
  simp only [exec, execAddI]
  by_cases h : s.i.toNat + (s.reg x).toNat ≤ 0xFFFF
  · rw [if_pos h, if_pos (.inl h)]
  · rw [if_neg h]
    cases Config.iAddOverflow with
    | wrap => rw [if_pos (.inr rfl)]
    | fault => rw [if_neg (by simp [h])]

/-- Where `ADD I,Vx` gives a next state, it is the one with the sum. -/
theorem exec_addI_next {x : Reg} {s t : State} (h : exec (.addI x) s = .next t) :
    t = s.setI (s.i + zext16 (s.reg x)) := by
  rw [exec_addI] at h
  split at h
  · cases h; rfl
  · cases h

/-! ## Who writes what (10_state, section 12) -/

/-- A frame of one part allows whatever allows that part. -/
theorem Frame.of_part {s t : State} {q : Part} {c : Part → Prop} (h : Frame s t (· = q)) (hq : c q) : Frame s t c :=
  h.mono fun _ hp => hp ▸ hq

/-- A frame of pixels allows whatever allows every pixel. -/
theorem Frame.of_pixels {s t : State} {d : Part → Prop} (h : Frame s t (fun p => ∃ c r, p = .pixel c r))
    (hd : ∀ c r, d (.pixel c r)) : Frame s t d :=
  h.mono fun _ ⟨c, r, hp⟩ => hp ▸ hd c r

/-- A clock sample changes the record of the clock alone. -/
theorem frame_sampleNow (s : State) : Frame s (sampleNow s).2 (· = .clock) := frame_setClock s _ _

/-- A random byte changes the record of the random source alone. -/
theorem frame_drawRnd (s : State) : Frame s (drawRnd s).2 (· = .rnd) := frame_setRnd s _

/-- A destination register may be written. -/
theorem mayWrite_destReg {i : Instr} {x : Reg} (h : destReg i = some x) : MayWrite i (.reg x) := .inl h

/-- An instruction with a destination and a flag may write the two registers. -/
theorem mayWrite_result_and_flag {i : Instr} {x : Reg} (hx : destReg i = some x) (hf : writesFlag i = true) :
    ∀ p ∈ [Part.reg x, .reg Reg.vf], MayWrite i p := by
  simp only [List.mem_cons, List.not_mem_nil, or_false]
  rintro _ (rfl | rfl)
  · exact .inl hx
  · exact .inr ⟨rfl, hf⟩

/-- An executed instruction changes only the parts it is listed for. -/
theorem exec_frame {i : Instr} {s t : State} (h : exec i s = .next t) : Frame s t (MayWrite i) := by
  cases i with
  | cls => cases h; exact (frame_setScreen s _).of_pixels fun _ _ => .inl rfl
  | ret =>
    rcases exec_ret_cases s with ⟨below, -, e⟩ | ⟨-, e⟩ <;> cases e.symm.trans h
    · exact ((frame_setSp s below).of_part (.inl rfl)).trans ((frame_setPc _ _).of_part (.inl rfl))
    · exact (frame_setFault s _).of_part (.inl rfl)
  | jp nnn => cases h; exact (frame_setPc s _).of_part (.inr (.inl ⟨nnn, .inl rfl⟩))
  | call nnn =>
    rcases exec_call_cases nnn s with ⟨top, htop, e⟩ | ⟨-, e⟩ <;> cases e.symm.trans h
    · have hne : top ≠ 0 := fun h0 => by simp [h0] at htop
      exact ((frame_setSp s top).of_part (.inr ⟨nnn, rfl⟩)).trans
        (((frame_setSlot _ top _).of_part ⟨hne, nnn, rfl⟩).trans
          ((frame_setPc _ _).of_part (.inr (.inl ⟨nnn, .inr (.inl rfl)⟩))))
    · exact (frame_setFault s _).of_part (.inr (.inl ⟨nnn, rfl⟩))
  | jpV0 nnn => cases h; exact (frame_setPc s _).of_part (.inr (.inl ⟨nnn, .inr (.inr rfl)⟩))
  | seImm x kk => cases h; exact (frame_skipIf s _).of_part (.inr (.inr (.inl ⟨x, kk, .inl rfl⟩)))
  | sneImm x kk => cases h; exact (frame_skipIf s _).of_part (.inr (.inr (.inl ⟨x, kk, .inr rfl⟩)))
  | seReg x y => cases h; exact (frame_skipIf s _).of_part (.inr (.inr (.inr ⟨x, y, .inl rfl⟩)))
  | sneReg x y => cases h; exact (frame_skipIf s _).of_part (.inr (.inr (.inr ⟨x, y, .inr rfl⟩)))
  | ldImm x _ | addImm x _ | ldReg x _ | orReg x _ | andReg x _ | xorReg x _ =>
    cases h; exact (frame_setReg s x _).of_part (mayWrite_destReg rfl)
  | addReg x _ | subReg x _ | subnReg x _ =>
    cases h; exact (frame_setResultThenFlag s x _ _).mono (mayWrite_result_and_flag rfl rfl)
  | shr x _ | shl x _ =>
    cases h; exact (frame_setFlagThenResult s x _ _).mono (mayWrite_result_and_flag rfl rfl)
  | ldI nnn => cases h; exact (frame_setI s _).of_part (.inl ⟨nnn, rfl⟩)
  | addI x => cases exec_addI_next h; exact (frame_setI s _).of_part (.inr ⟨x, rfl⟩)
  | rnd x kk =>
    cases h
    exact ((frame_drawRnd s).of_part ⟨x, kk, rfl⟩).trans ((frame_setReg _ x _).of_part (mayWrite_destReg rfl))
  | drw x y n =>
    have hscr : ∀ scr, Frame s (s.setScreen scr) (MayWrite (.drw x y n)) := fun scr =>
      (frame_setScreen s scr).of_pixels fun _ _ => .inr ⟨x, y, n, rfl⟩
    rcases exec_drw_cases x y n s with ⟨scr, any, -, e⟩ | ⟨scr, -, e⟩ <;> cases e.symm.trans h
    · exact (hscr scr).trans ((frame_setReg _ Reg.vf _).of_part (.inr ⟨rfl, rfl⟩))
    · exact (hscr scr).trans ((frame_setFault _ _).of_part (.inr (.inr ⟨x, y, n, rfl⟩)))
  | ldVxDt x =>
    cases h
    exact ((frame_sampleNow s).of_part ⟨x, .inl rfl⟩).trans ((frame_setReg _ x _).of_part (mayWrite_destReg rfl))
  | ldDtVx x =>
    cases h
    exact ((frame_sampleNow s).of_part ⟨x, .inr (.inl rfl)⟩).trans ((frame_setDt _ _).of_part ⟨x, rfl⟩)
  | ldStVx x =>
    cases h
    exact ((frame_sampleNow s).of_part ⟨x, .inr (.inr rfl)⟩).trans ((frame_setSt _ _).of_part ⟨x, rfl⟩)

/-- Settles O53: the frame of every instruction, read off the writers its meaning is made of. -/
theorem writtenOnlyByItsWriters : Obligations.WrittenOnlyByItsWriters := fun _ _ _ h => exec_frame h

/-! ## The invariant: each writer keeps it -/

section
variable {s : State} (h : Inv s)
include h

theorem Inv.setReg (x : Reg) (b : Byte) : Inv (s.setReg x b) := { h with }
theorem Inv.setI (w : Word) : Inv (s.setI w) := { h with }
theorem Inv.setScreen (p : Screen) : Inv (s.setScreen p) := { h with }
theorem Inv.setRnd (n : Nat) : Inv (s.setRnd n) := { h with }
theorem Inv.setPc {w : Word} (hw : w.toNat ≤ 0x10FE) : Inv (s.setPc w) := { h with pcBound := hw }
theorem Inv.setDt {e : Rat} (he : 0 ≤ e) : Inv (s.setDt e) := { h with dtNonneg := he }
theorem Inv.setSt {e : Rat} (he : 0 ≤ e) : Inv (s.setSt e) := { h with stNonneg := he }
theorem Inv.setClock {q : Rat} (hq : 0 ≤ q) (n : Nat) : Inv (s.setClock q n) := { h with clockNonneg := hq }

theorem Inv.setFault {k : FaultKind} (hk : k ≠ .loadOversized) : Inv (s.setFault k) :=
  { h with latchKind := fun e => hk (Option.some.inj e) }

/-- With fewer return addresses held, those still held are bounded as before. -/
theorem Inv.setSp_below {below : Fin 16} (hsp : below.val ≤ s.sp.val) : Inv (s.setSp below) :=
  { h with returnBound := fun k hk hle => h.returnBound k hk (hle.trans hsp) }

/-- One more return address held, and bounded. -/
theorem Inv.push {top : Fin 16} (htop : top.val = s.sp.val + 1) {w : Word} (hw : w.toNat ≤ 4096) :
    Inv ((s.setSp top).setSlot top w) :=
  { h with
    returnBound := fun k hk hle => by
      rw [State.setSlot_slot]
      by_cases hkt : k = top
      · rwa [if_pos hkt]
      · rw [if_neg hkt]
        have hne : k.val ≠ top.val := fun e => hkt (Fin.ext e)
        exact h.returnBound k hk (by simp only [State.setSlot_sp, State.setSp_sp] at hle; omega) }

/-- A clock sample is not negative (R123). -/
theorem sampleNow_nonneg : 0 ≤ (sampleNow s).1 := by
  obtain ⟨now, e, hle⟩ := sampleNow_spec s
  rw [e]
  exact h.clockNonneg.trans hle

/-- A clock sample is recorded. -/
theorem Inv.sampleNow : Inv (sampleNow s).2 := h.setClock (sampleNow_nonneg h) _

end

/-- An expiry set at a sample that is not negative is not negative (R121). -/
theorem timerExpiry_nonneg {now : Rat} (h : 0 ≤ now) (ticks : Byte) : 0 ≤ timerExpiry now ticks := by
  unfold timerExpiry Config.tickMs
  positivity

/-- A skip moves `pc` by at most 2. -/
theorem State.skipIf_pc_le {s : State} (hp : s.pc.toNat ≤ 4096) (b : Bool) : (s.skipIf b).pc.toNat ≤ 4098 := by
  rw [State.skipIf_pc]
  split
  · rw [BitVec.toNat_add]
    change (s.pc.toNat + 2) % 2 ^ 16 ≤ 4098
    omega
  · omega

/-- A skip from an address that a fetch leaves keeps the invariant. -/
theorem Inv.skipIf {s : State} (h : Inv s) (hp : s.pc.toNat ≤ 4096) (b : Bool) : Inv (s.skipIf b) := by
  have hle := State.skipIf_pc_le hp b
  cases b
  · exact h
  · exact h.setPc (hle.trans (by omega))

/-- The largest jump target is 0x10FE (R14, R87). -/
theorem jpV0_target_le (nnn : Addr12) (b : Byte) : (addrOperand nnn + zext16 b).toNat ≤ 0x10FE := by
  have hn := nnn.isLt
  have hb := b.isLt
  rw [BitVec.toNat_add, addrOperand_toNat, zext16_toNat]
  omega

/-- An address operand is at most 4095 (30_encoding R53). -/
theorem addrOperand_le (nnn : Addr12) : (addrOperand nnn).toNat ≤ 4095 := by
  have := nnn.isLt
  rw [addrOperand_toNat]
  omega

/-- An executed instruction keeps the invariant, from where a fetch leaves `pc`. -/
theorem exec_keeps_inv {i : Instr} {s t : State} (hs : Inv s) (hp : s.pc.toNat ≤ 4096) (h : exec i s = .next t) :
    Inv t := by
  cases i with
  | cls => cases h; exact hs.setScreen _
  | ret =>
    rcases exec_ret_cases s with ⟨below, hsp, e⟩ | ⟨-, e⟩ <;> cases e.symm.trans h
    · have hslot := hs.returnBound s.sp (by omega) le_rfl
      exact (hs.setSp_below (by omega)).setPc (hslot.trans (by omega))
    · exact hs.setFault (by decide)
  | jp nnn => cases h; exact hs.setPc ((addrOperand_le nnn).trans (by omega))
  | call nnn =>
    rcases exec_call_cases nnn s with ⟨top, htop, e⟩ | ⟨-, e⟩ <;> cases e.symm.trans h
    · exact (hs.push htop hp).setPc ((addrOperand_le nnn).trans (by omega))
    · exact hs.setFault (by decide)
  | jpV0 nnn => cases h; exact hs.setPc (jpV0_target_le nnn _)
  | seImm _ _ | sneImm _ _ | seReg _ _ | sneReg _ _ => cases h; exact hs.skipIf hp _
  | ldImm x _ | addImm x _ | ldReg x _ | orReg x _ | andReg x _ | xorReg x _ => cases h; exact hs.setReg x _
  | addReg x _ | subReg x _ | subnReg x _ => cases h; exact (hs.setReg x _).setReg Reg.vf _
  | shr x _ | shl x _ => cases h; exact (hs.setReg Reg.vf _).setReg x _
  | ldI nnn => cases h; exact hs.setI _
  | addI x => cases exec_addI_next h; exact hs.setI _
  | rnd x kk => cases h; exact (hs.setRnd _).setReg x _
  | drw x y n =>
    rcases exec_drw_cases x y n s with ⟨scr, any, -, e⟩ | ⟨scr, -, e⟩ <;> cases e.symm.trans h
    · exact (hs.setScreen scr).setReg Reg.vf _
    · exact (hs.setScreen scr).setFault (by decide)
  | ldVxDt x => cases h; exact hs.sampleNow.setReg x _
  | ldDtVx x => cases h; exact hs.sampleNow.setDt (timerExpiry_nonneg (sampleNow_nonneg hs) _)
  | ldStVx x => cases h; exact hs.sampleNow.setSt (timerExpiry_nonneg (sampleNow_nonneg hs) _)

/-- No illegal word raises the loader's kind (R136). -/
theorem rejectKind_ne_loadOversized (r : DecodeReject) : rejectKind r ≠ .loadOversized := by
  cases r <;> decide

/-- Settles O52: the four ways a step can go; the fetch leaves `pc` at most 4096, from where no instruction breaks a bound. -/
theorem stepKeepsInv : Obligations.StepKeepsInv := by
  intro s t hs h
  have hadv (hp : s.pc.toNat ≤ 4094) : s.advance.pc.toNat ≤ 4096 := by rw [State.advance_toNat hp]; omega
  have hinv (hp : s.pc.toNat ≤ 4094) : Inv s.advance := hs.setPc ((hadv hp).trans (by omega))
  rcases step_cases s with ⟨_, -, e⟩ | ⟨-, -, e⟩ | ⟨-, hp, r, -, e⟩ | ⟨-, hp, i, -, e⟩
  · cases e.symm.trans h; exact hs
  · cases e.symm.trans h; exact hs.setFault (by decide)
  · cases e.symm.trans h; exact (hinv hp).setFault (rejectKind_ne_loadOversized r)
  · exact exec_keeps_inv (hinv hp) (hadv hp) (e.symm.trans h)

/-! ## What no instruction reads -/

/-- The state with the expiry of ST and the call stack replaced by functions of themselves: what `setSt` and `setSlot` have in
common. -/
def State.mapStAndStack (s : State) (f : Rat → Rat) (g : Vector Word 16 → Vector Word 16) : State :=
  { s with st := f s.st, stack := g s.stack }

theorem State.setSt_eq_map (s : State) (e : Rat) : s.setSt e = s.mapStAndStack (fun _ => e) id := rfl

theorem State.setSlot_eq_map (s : State) (k : Fin 16) (w : Word) :
    s.setSlot k w = s.mapStAndStack id (fun v => v.set k.val w k.isLt) := rfl

theorem State.skipIf_mapStAndStack (s : State) (f : Rat → Rat) (g : Vector Word 16 → Vector Word 16) (b : Bool) :
    (s.mapStAndStack f g).skipIf b = (s.skipIf b).mapStAndStack f g := by
  cases b <;> rfl

/-- What an instruction does from the state with ST and the stack replaced is what it did, replaced likewise: if it sets ST, ST must
be kept; the slot `sp` names must be kept, for `RET`; and what `CALL` pushes must not be in the way. -/
theorem exec_mapStAndStack {i : Instr} {s t : State} {f : Rat → Rat} {g : Vector Word 16 → Vector Word 16}
    (hst : MayWrite i .st → f = id) (hread : s.sp.val ≠ 0 → (s.mapStAndStack f g).slot s.sp = s.slot s.sp)
    (hwrite : ∀ nnn (top : Fin 16), i = .call nnn → top.val = s.sp.val + 1 →
      (s.mapStAndStack f g).setSlot top s.pc = (s.setSlot top s.pc).mapStAndStack f g)
    (h : exec i s = .next t) : exec i (s.mapStAndStack f g) = .next (t.mapStAndStack f g) := by
  cases i with
  | ret =>
    rcases exec_ret_cases s with ⟨below, hsp, e⟩ | ⟨hsp, e⟩ <;> cases e.symm.trans h
    · rw [exec_ret_of_held (s := s.mapStAndStack f g) hsp]
      have hslot : (s.mapStAndStack f g).slot (s.mapStAndStack f g).sp = s.slot s.sp := hread (by omega)
      rw [hslot]
      rfl
    · exact exec_ret_of_empty (s := s.mapStAndStack f g) hsp
  | call nnn =>
    rcases exec_call_cases nnn s with ⟨top, htop, e⟩ | ⟨hsp, e⟩ <;> cases e.symm.trans h
    · rw [exec_call_of_room nnn (s := s.mapStAndStack f g) htop]
      exact congrArg (fun u => Host.Outcome.next ((u.setSp top).setPc (addrOperand nnn))) (hwrite nnn top rfl htop)
    · exact exec_call_of_full nnn (s := s.mapStAndStack f g) hsp
  | ldStVx x => cases h; cases hst ⟨x, rfl⟩; rfl
  | seImm _ _ | sneImm _ _ | seReg _ _ | sneReg _ _ =>
    cases h; exact congrArg Host.Outcome.next (s.skipIf_mapStAndStack f g _)
  | drw x y n =>
    have hsame : drawSprite (s.mapStAndStack f g) x y n = drawSprite s x y n := rfl
    rcases exec_drw_cases x y n s with ⟨scr, any, hd, e⟩ | ⟨scr, hd, e⟩ <;> cases e.symm.trans h
    · exact exec_drw_of_ok (hsame.trans hd)
    · exact exec_drw_of_error (hsame.trans hd)
  | addI x =>
    rw [exec_addI] at h ⊢
    split at h
    · cases h; exact if_pos ‹_›
    · cases h
  -- the others give one next state, built by writers of other fields from operands in other fields
  | _ => cases h; rfl

/-- A faulted machine does nothing (R75 c). -/
theorem step_of_faulted {s : State} {k : FaultKind} (hf : s.fault = some k) : step s = .next s := by
  simp only [step, hf]

/-- A fetch out of bounds sets the latch (R71). -/
theorem step_of_fetch_fault {s : State} (hf : s.fault = none) (hp : 4095 ≤ s.pc.toNat) :
    step s = .next (s.setFault .memoryOutOfBounds) := by
  rcases fetch_cases s with ⟨_, _⟩ | ⟨_, e⟩
  · omega
  · simp only [step, runStep, hf, e, raise]

/-- A fetch in bounds: the word at `pc` is executed, `pc` advanced (R70, R72). -/
theorem step_of_fetched {s : State} (hf : s.fault = none) (hp : s.pc.toNat ≤ 4094) :
    step s = execWord (BitVec.ofNat 16 (wordAt s)) s.advance := by
  rcases fetch_cases s with ⟨_, e⟩ | ⟨_, _⟩
  · simp only [step, runStep, hf, e, wordAt_eq]
  · omega

/-- Two states that agree on the latch, `pc` and memory take the same branch of the step: nothing, a fault at the fetch, a fault at
an illegal word, or the same instruction. -/
theorem step_cases_of_agree {s u : State} (hf : u.fault = s.fault) (hpc : u.pc = s.pc) (hm : u.mem = s.mem) :
    (step s = .next s ∧ step u = .next u) ∨
    (∃ k, step s = .next (s.setFault k) ∧ step u = .next (u.setFault k)) ∨
    (∃ k, step s = .next (s.advance.setFault k) ∧ step u = .next (u.advance.setFault k)) ∨
    (∃ i, step s = exec i s.advance ∧ step u = exec i u.advance) := by
  have hword : wordAt u = wordAt s := by rw [wordAt, wordAt, hpc, hm]
  cases hk : s.fault with
  | some k => exact .inl ⟨step_of_faulted hk, step_of_faulted (hf.trans hk)⟩
  | none =>
    by_cases hp : s.pc.toNat ≤ 4094
    · rw [step_of_fetched hk hp, step_of_fetched (hf.trans hk) (hpc ▸ hp), hword]
      unfold execWord raise
      cases decodeWord (BitVec.ofNat 16 (wordAt s)) with
      | error r => exact .inr (.inr (.inl ⟨_, rfl, rfl⟩))
      | ok i => exact .inr (.inr (.inr ⟨i, rfl, rfl⟩))
    · exact .inr (.inl ⟨_, step_of_fetch_fault hk (by omega), step_of_fetch_fault (hf.trans hk) (by rw [hpc]; omega)⟩)

/-- An instruction executed with another ST expiry: the same but for it. -/
theorem exec_setSt {i : Instr} {s t : State} (e : Rat) (h : exec i s = .next t) :
    ∃ e', exec i (s.setSt e) = .next (t.setSt e') := by
  by_cases hst : MayWrite i .st
  · obtain ⟨x, rfl⟩ := hst
    cases h
    exact ⟨_, rfl⟩
  · refine ⟨e, ?_⟩
    rw [State.setSt_eq_map, State.setSt_eq_map]
    exact exec_mapStAndStack (fun h => absurd h hst) (fun _ => rfl) (fun _ _ _ _ => rfl) h

/-- The later of two writes of one slot stands. -/
@[simp] theorem State.setSlot_setSlot_self (s : State) (k : Fin 16) (w w' : Word) :
    (s.setSlot k w).setSlot k w' = s.setSlot k w' := by
  simp [State.setSlot]

/-- Writes of two slots commute. -/
theorem State.setSlot_comm (s : State) {j k : Fin 16} (hjk : j ≠ k) (w w' : Word) :
    (s.setSlot j w).setSlot k w' = (s.setSlot k w').setSlot j w := by
  simp only [State.setSlot, Vector.set_comm w w' (fun e => hjk (Fin.ext e))]

/-- An instruction executed with another word in a slot outside 1 to `sp`: the same but for that slot, which a `CALL` may write. -/
theorem exec_setSlot {i : Instr} {s t : State} {k : Fin 16} (w : Word) (hk : k.val = 0 ∨ s.sp.val < k.val)
    (h : exec i s = .next t) : ∃ w', exec i (s.setSlot k w) = .next (t.setSlot k w') := by
  by_cases hcall : ∃ nnn, i = .call nnn ∧ k.val = s.sp.val + 1
  · obtain ⟨nnn, rfl, htop⟩ := hcall
    cases (exec_call_of_room nnn htop).symm.trans h
    refine ⟨s.pc, (exec_call_of_room nnn (s := s.setSlot k w) htop).trans ?_⟩
    have hstack : (s.setSlot k w).setSlot k s.pc = (s.setSlot k s.pc).setSlot k s.pc := by simp
    exact congrArg (fun u => Host.Outcome.next ((u.setSp k).setPc (addrOperand nnn))) hstack
  · refine ⟨w, ?_⟩
    rw [State.setSlot_eq_map, State.setSlot_eq_map]
    refine exec_mapStAndStack (fun _ => rfl) (fun hsp => ?_) (fun nnn top hi htop => ?_) h
    · exact (State.setSlot_slot s k w s.sp).trans (if_neg fun e => by rw [e] at hsp hk; omega)
    · have hne : k ≠ top := fun e => hcall ⟨nnn, hi, e ▸ htop⟩
      exact s.setSlot_comm hne w s.pc

/-- Settles O54: the two states take the same branch of the step, and an instruction carries ST along or sets it. -/
theorem soundTimerIsNotRead : Obligations.SoundTimerIsNotRead := by
  intro s t e h
  rcases step_cases_of_agree (s := s) (u := s.setSt e) rfl rfl rfl with
    ⟨es, eu⟩ | ⟨k, es, eu⟩ | ⟨k, es, eu⟩ | ⟨i, es, eu⟩
  · cases es.symm.trans h; exact ⟨e, eu⟩
  · cases es.symm.trans h; exact ⟨e, eu⟩
  · cases es.symm.trans h; exact ⟨e, eu⟩
  · obtain ⟨e', he'⟩ := exec_setSt e (es.symm.trans h)
    exact ⟨e', eu.trans he'⟩

/-- Settles O55: the two states take the same branch of the step, and an instruction carries the slot along or pushes into it. -/
theorem unusedSlotsAreNotRead : Obligations.UnusedSlotsAreNotRead := by
  intro s t k w hk h
  rcases step_cases_of_agree (s := s) (u := s.setSlot k w) rfl rfl rfl with
    ⟨es, eu⟩ | ⟨j, es, eu⟩ | ⟨j, es, eu⟩ | ⟨i, es, eu⟩
  · cases es.symm.trans h; exact ⟨w, eu⟩
  · cases es.symm.trans h; exact ⟨w, eu⟩
  · cases es.symm.trans h; exact ⟨w, eu⟩
  · obtain ⟨w', hw'⟩ := exec_setSlot (s := s.advance) w hk (es.symm.trans h)
    exact ⟨w', eu.trans hw'⟩

/-! ## The snapshot -/

/-- The count of R122 as a number. -/
theorem remainingTicks_toNat (expiry now : Rat) :
    (remainingTicks expiry now).toNat =
      if expiry ≤ now then 0 else min ⌊(expiry - now) / Config.tickMs⌋.toNat 255 := by
  unfold remainingTicks
  split
  · rfl
  · rw [BitVec.toNat_ofNat]
    exact Nat.mod_eq_of_lt (lt_of_le_of_lt (min_le_right _ _) (by decide))

/-- An expired timer has no ticks left. -/
theorem remainingTicks_of_expired {expiry now : Rat} (h : expiry ≤ now) : remainingTicks expiry now = 0 := if_pos h

/-- The count does not rise as time passes (R127 a). -/
theorem remainingTicks_antitone (expiry : Rat) {now later : Rat} (h : now ≤ later) :
    (remainingTicks expiry later).toNat ≤ (remainingTicks expiry now).toNat := by
  rw [remainingTicks_toNat, remainingTicks_toNat]
  by_cases hl : expiry ≤ later
  · rw [if_pos hl]
    exact Nat.zero_le _
  · rw [if_neg hl, if_neg fun hn => hl (hn.trans h)]
    have htick : (0 : Rat) ≤ Config.tickMs := by unfold Config.tickMs; norm_num
    exact min_le_min_right _ (Int.toNat_le_toNat (Int.floor_le_floor
      (div_le_div_of_nonneg_right (sub_le_sub_left h expiry) htick)))

/-- A snapshot timer by timer: each is shown at a sample of its own, not less than the last one, and the later of the two is
recorded. -/
theorem snapshot_samples (s : State) :
    ∃ nowDt nowSt, s.clockLast ≤ nowDt ∧ s.clockLast ≤ nowSt ∧
      (snapshot s).2 = s.setClock (max nowDt nowSt) (s.clockDraws + 2) ∧
      (snapshot s).1.dtTicks = remainingTicks s.dt nowDt ∧ (snapshot s).1.stTicks = remainingTicks s.st nowSt := by
  obtain ⟨first, second, h1, h2, hs, ⟨hdt, hst⟩ | ⟨hdt, hst⟩⟩ := snapshot_spec s
  · exact ⟨first, second, h1, h1.trans h2, by rw [max_eq_right h2, hs], hdt, hst⟩
  · exact ⟨second, first, h1.trans h2, h1, by rw [max_eq_left h2, hs], hdt, hst⟩

/-- Settles O56: the two samples are those of `snapshot_samples`; the fields are shown as they stand. -/
theorem snapshotReadsOnly : Obligations.SnapshotReadsOnly := by
  intro s
  obtain ⟨nowDt, nowSt, hd, hs, e, hdt, hst⟩ := snapshot_samples s
  refine ⟨?_, by rw [e]; rfl, fun _ => rfl, rfl, rfl, rfl, fun _ => rfl, fun _ _ => rfl, rfl,
    nowDt, nowSt, hd, hs, by rw [e]; rfl, hdt, hst⟩
  rw [e]
  exact (frame_setClock s _ _).of_part (List.mem_singleton.mpr rfl)

/-- Settles O57: only the record of the clock changes, to a sample not less than the last one. -/
theorem snapshotKeepsInv : Obligations.SnapshotKeepsInv := by
  intro s h
  obtain ⟨nowDt, nowSt, hd, -, e, -, -⟩ := snapshot_samples s
  rw [e]
  exact h.setClock (h.clockNonneg.trans (hd.trans (le_max_left _ _))) _

/-- A load that starts the machine leaves everything but memory as reset left it (R152). -/
theorem boot_ok {image : List Byte} {s : State} (h : boot image = .ok s) : ∃ m, s = State.reset.setMem m := by
  unfold boot loadImage at h
  split at h
  · cases h; exact ⟨_, rfl⟩
  · cases h

/-- A timer expired at the last sample is expired at the snapshot's. -/
theorem snapshot_of_expired (s : State) :
    (s.dt ≤ s.clockLast → (snapshot s).1.dtTicks = 0) ∧ (s.st ≤ s.clockLast → (snapshot s).1.stTicks = 0) := by
  obtain ⟨nowDt, nowSt, hd, hs, -, hdt, hst⟩ := snapshot_samples s
  rw [hdt, hst]
  exact ⟨fun h => remainingTicks_of_expired (h.trans hd), fun h => remainingTicks_of_expired (h.trans hs)⟩

/-- Settles O58: the samples are not less than the last one, and a load leaves expiries and clock at reset's 0. -/
theorem snapshotOfExpiredTimers : Obligations.SnapshotOfExpiredTimers := by
  refine ⟨snapshot_of_expired, fun image s h => ?_⟩
  obtain ⟨m, rfl⟩ := boot_ok h
  have hexp := snapshot_of_expired (State.reset.setMem m)
  exact ⟨hexp.1 le_rfl, hexp.2 le_rfl⟩

/-- Settles O59: every later sample is at least the one a timer was shown at, and counts fall with time. -/
theorem snapshotCountsFall : Obligations.SnapshotCountsFall := by
  intro s u hclock
  obtain ⟨nowDt, nowSt, -, -, e, hdt, hst⟩ := snapshot_samples s
  obtain ⟨laterDt, laterSt, hd', hs', -, hdt', hst'⟩ := snapshot_samples u
  rw [e, State.setClock_clockLast, max_le_iff] at hclock
  obtain ⟨hd, hs⟩ := hclock
  rw [hdt, hst, hdt', hst']
  refine ⟨fun hu => ⟨?_, fun x => ?_⟩, fun hu => ?_⟩
  · rw [hu]
    exact remainingTicks_antitone s.dt (hd.trans hd')
  · obtain ⟨now, es, hnow⟩ := sampleNow_spec u
    refine ⟨_, rfl, ?_⟩
    rw [State.setReg_reg_self, hu, es]
    exact remainingTicks_antitone s.dt (hd.trans hnow)
  · rw [hu]
    exact remainingTicks_antitone s.st (hs.trans hs')

end Sys2Proof.Machine

namespace Sys2Proof.Machine

/-! # Memory: the bounds of its two ports, the load, the glyph table, and that no step writes it (20_memory) -/

/-! ## The bounds of the ports (R32, R33) -/

/-- `MemWrite(addr, 1, v)`: in range the byte written, out of range the fault. -/
theorem Memory.writeByte_cases (m : Memory) (a : Nat) (v : Byte) :
    (a ≤ 4095 ∧ m.writeByte a v = .ok (m.write a v)) ∨ (4096 ≤ a ∧ m.writeByte a v = .error .memoryOutOfBounds) := by
  unfold Memory.writeByte Config.memSize
  split
  · exact .inl ⟨by omega, rfl⟩
  · exact .inr ⟨by omega, rfl⟩

/-- Settles O46: an address in range is written, in the canonical form; one out of range is refused. -/
theorem memWriteBounds : Obligations.MemWriteBounds := by
  intro m addr b
  rcases m.writeByte_cases addr b with ⟨hin, e⟩ | ⟨hout, e⟩
  · refine ⟨fun hm _ => ⟨_, e, Memory.write_wf (by omega) hm, ?_, fun a ha => ?_⟩, fun _ => by omega⟩
    · rw [Memory.write_read hm, if_pos rfl]
    · rw [Memory.write_read hm, if_neg ha]
  · exact ⟨fun _ _ => by omega, fun _ => e⟩

/-- Settles O45: an address is in or out of range of each read, and the bounds rule one of the two out. -/
theorem memReadBounds : Obligations.MemReadBounds := by
  intro m addr
  have hbyte := m.readByte_cases addr
  have hword := m.readWord_cases addr
  refine ⟨fun hin => ?_, fun hout => ?_, fun hin => ?_, fun hout => ?_⟩
  · exact (hbyte.resolve_right fun ⟨hout, _⟩ => by omega).2
  · exact (hbyte.resolve_left fun ⟨hin, _⟩ => by omega).2
  · exact ⟨_, (hword.resolve_right fun ⟨hout, _⟩ => by omega).2, wordOfBytes_toNat _ _⟩
  · exact (hword.resolve_left fun ⟨hin, _⟩ => by omega).2

/-! ## The load (R45) -/

/-- Reset meets the invariant: no return address is held, and the rest are bounds on constants. -/
theorem inv_reset : Inv State.reset where
  memWf := Memory.reset_wf
  dtNonneg := le_rfl
  stNonneg := le_rfl
  clockNonneg := le_rfl
  pcBound := by decide
  returnBound := fun _ hk hle => absurd (hk.trans_le hle) (lt_irrefl 0)
  latchKind := nofun

/-- A canonical memory put in place keeps the invariant. -/
theorem Inv.setMem {s : State} (h : Inv s) {m : Memory} (hm : m.wf = true) : Inv (s.setMem m) := { h with memWf := hm }

/-- Replacing the memory changes only bytes that read otherwise. -/
theorem frame_setMem {s : State} {m : Memory} {c : Part → Prop} (h : ∀ a, ¬ c (.byte a) → m.read a = s.mem.read a) :
    Frame s (s.setMem m) c := by
  intro p hp
  cases p with
  | byte a => exact h a hp
  | clock => exact ⟨rfl, rfl⟩
  | _ => rfl

/-- The load, both ways it can end (R45, R136). -/
theorem boot_cases (image : List Byte) :
    (image.length ≤ 3584 ∧ boot image = .ok (State.reset.setMem (Memory.copy State.reset.mem 512 image))) ∨
    (3584 < image.length ∧ boot image = .error .loadOversized) := by
  unfold boot loadImage Config.progMax
  split
  · exact .inl ⟨‹_›, rfl⟩
  · exact .inr ⟨by omega, rfl⟩

/-- Settles O48: an image that fits is copied from 512 up, which `Memory.copy_read` reads back byte by byte. -/
theorem bootPlacesTheImage : Obligations.BootPlacesTheImage := by
  intro image
  rcases boot_cases image with ⟨hfit, e⟩ | ⟨hbig, e⟩
  · have hlen : 512 + image.length ≤ 4096 := by omega
    have hread := Memory.copy_read hlen Memory.reset_wf
    refine ⟨fun _ => ⟨_, e, inv_reset.setMem (Memory.copy_wf hlen Memory.reset_wf), fun k hk => ?_,
      frame_setMem fun a ha => ?_⟩, fun _ => by omega⟩
    · rw [State.setMem_mem, hread, dif_pos (by omega)]
      simp only [Nat.add_sub_cancel_left]
    · rw [hread, dif_neg]
      rintro ⟨hlo, hhi⟩
      exact ha ⟨a - 512, by omega, by rw [Nat.add_sub_cancel' hlo]⟩
  · exact ⟨fun _ => by omega, fun _ => e⟩

/-! ## No step writes memory (R39) -/

@[simp] theorem State.skipIf_mem (s : State) (b : Bool) : (s.skipIf b).mem = s.mem := by
  cases b <;> rfl

/-- No instruction writes memory: none of the writers its meaning is made of does. -/
theorem exec_keeps_mem {i : Instr} {s t : State} (h : exec i s = .next t) : t.mem = s.mem := by
  cases i with
  | ret => rcases exec_ret_cases s with ⟨below, -, e⟩ | ⟨-, e⟩ <;> cases e.symm.trans h <;> rfl
  | call nnn => rcases exec_call_cases nnn s with ⟨top, -, e⟩ | ⟨-, e⟩ <;> cases e.symm.trans h <;> rfl
  | drw x y n => rcases exec_drw_cases x y n s with ⟨scr, any, -, e⟩ | ⟨scr, -, e⟩ <;> cases e.symm.trans h <;> rfl
  | seImm _ _ | sneImm _ _ | seReg _ _ | sneReg _ _ => cases h; exact s.skipIf_mem _
  | addI x => cases exec_addI_next h; rfl
  -- the others give one next state, built by writers of other fields
  | _ => cases h; rfl

/-- No step writes memory, whichever of the four ways it goes. -/
theorem step_keeps_mem {s t : State} (h : step s = .next t) : t.mem = s.mem := by
  rcases step_cases s with ⟨_, -, e⟩ | ⟨-, -, e⟩ | ⟨-, -, r, -, e⟩ | ⟨-, -, i, -, e⟩
  · cases e.symm.trans h; rfl
  · cases e.symm.trans h; rfl
  · cases e.symm.trans h; rfl
  · exact (exec_keeps_mem (e.symm.trans h)).trans s.advance_mem

/-- No run writes memory. -/
theorem run_keeps_mem {n : Nat} {s t : State} (h : core.run n s = .next t) : t.mem = s.mem :=
  core_run_keeps (P := fun s t => t.mem = s.mem) (fun _ => rfl) (fun _ _ _ h1 h2 => h2.trans h1)
    (fun _ _ h => step_keeps_mem h) n s t h

/-- Settles O49: the memory itself is kept, and so is what it reads as at every address. -/
theorem runKeepsMemory : Obligations.RunKeepsMemory := fun _ _ _ h =>
  ⟨run_keeps_mem h, fun a => by rw [run_keeps_mem h]⟩

/-! ## The glyph table (R31, R43, R44) -/

/-- After reset the 80 bytes of the glyph table lie at 0 upward (R44). -/
theorem reset_read_glyph {a : Nat} (h : a < 80) : State.reset.mem.read a = Config.glyphTable ⟨a, h⟩ := dif_pos h

/-- A digit's glyph starts five bytes after the one before it (R43). -/
theorem glyphAddress_of_digit {digit : Nat} (h : digit ≤ 15) : glyphAddress digit = digit * 5 := if_pos h

/-- Any other input gets the table's base (R43, decision D23). -/
theorem glyphAddress_of_not_digit {digit : Nat} (h : 15 < digit) : glyphAddress digit = 0 := if_neg (by omega)

/-- Settles O50: a row of a digit's glyph is a byte of the table that reset put at 0; no other input gets an address but 0. -/
theorem glyphAddressInTable : Obligations.GlyphAddressInTable := by
  refine fun digit => ⟨fun hdigit r h => ?_, glyphAddress_of_not_digit⟩
  rw [glyphAddress_of_digit hdigit, reset_read_glyph h]

end Sys2Proof.Machine

namespace Sys2Proof.Machine

/-! # The opcode map and the illegal words (30_encoding) -/

/-! ## A word put together again from the fields the decoder looked at (R51, R52) -/

section
variable {w : Word} {c : BitVec 4} (hc : (classOf w).toNat = c.toNat)
include hc

theorem encNnn_of_class : encNnn c (nnnOf w) = w := by
  rw [← BitVec.eq_of_toNat_eq hc, encNnn_fields]

theorem encXkk_of_class : encXkk c (xOf w) (kkOf w) = w := by
  rw [← BitVec.eq_of_toNat_eq hc, encXkk_fields]

theorem encXkk_of_class_byte {kk : Byte} (hk : (kkOf w).toNat = kk.toNat) : encXkk c (xOf w) kk = w := by
  rw [← BitVec.eq_of_toNat_eq hk, encXkk_of_class hc]

theorem encXyn_of_class : encXyn c (xOf w) (yOf w) (nOf w) = w := by
  rw [← BitVec.eq_of_toNat_eq hc, encXyn_fields]

theorem encXyn_of_class_digit {n : Nibble} (hn : (nOf w).toNat = n.toNat) : encXyn c (xOf w) (yOf w) n = w := by
  rw [← BitVec.eq_of_toNat_eq hn, encXyn_of_class hc]

end

/-! ## What the decoder can answer (R54) -/

/-- The words that each of the rules R56 to R60 makes illegal. -/
def IllegalAs (w : Word) : DecodeReject → Prop
  | .zeroClass => w.toNat / 4096 = 0 ∧ w.toNat ≠ 0x00E0 ∧ w.toNat ≠ 0x00EE
  | .skipNibble => (w.toNat / 4096 = 5 ∨ w.toNat / 4096 = 9) ∧ w.toNat % 16 ≠ 0
  | .aluSelector => w.toNat / 4096 = 8 ∧ (w.toNat % 16 = 15 ∨ (8 ≤ w.toNat % 16 ∧ w.toNat % 16 ≤ 13))
  | .classE => w.toNat / 4096 = 14
  | .fSub => w.toNat / 4096 = 15 ∧ w.toNat % 256 ≠ 0x07 ∧ w.toNat % 256 ≠ 0x15 ∧ w.toNat % 256 ≠ 0x18 ∧ w.toNat % 256 ≠ 0x1E

/-- An answer that is right about `w`: an instruction whose word is `w`, or a rule that makes `w` illegal. -/
def SoundAnswer (w : Word) : Except DecodeReject Instr → Prop
  | .ok i => encode i = w
  | .error r => IllegalAs w r

/-- Class 8 (R58). -/
theorem decodeAlu_sound {w : Word} (hc : (classOf w).toNat = 8) : SoundAnswer w (decodeAlu w) := by
  have hreg {n : Nibble} (hn : (nOf w).toNat = n.toNat) := encXyn_of_class_digit (c := 8) hc hn
  unfold decodeAlu
  split
  case h_10 =>
    rw [classOf_toNat] at hc
    simp only [nOf_toNat, imp_false] at *
    exact ⟨hc, by omega⟩
  all_goals exact hreg ‹_›

/-- Class F (R60). -/
theorem decodeF_sound {w : Word} (hc : (classOf w).toNat = 15) : SoundAnswer w (decodeF w) := by
  have hsub {kk : Byte} (hk : (kkOf w).toNat = kk.toNat) := encXkk_of_class_byte (c := 15) hc hk
  unfold decodeF
  split
  case h_5 h07 h15 h18 h1E =>
    rw [classOf_toNat] at hc
    rw [kkOf_toNat] at h07 h15 h18 h1E
    exact ⟨hc, h07, h15, h18, h1E⟩
  all_goals exact hsub ‹_›

/-- Classes 5 and 9 (R57): a skip that compares two registers has a low digit of 0. -/
theorem skip_sound {w : Word} {c : BitVec 4} {i : Instr} (hw : w.toNat / 4096 = 5 ∨ w.toNat / 4096 = 9)
    (hc : (classOf w).toNat = c.toNat) (hi : encode i = encXyn c (xOf w) (yOf w) 0) :
    SoundAnswer w (if nOf w = 0 then .ok i else .error .skipNibble) := by
  by_cases hn : nOf w = 0
  · rw [if_pos hn]
    exact hi.trans (encXyn_of_class_digit hc (congrArg BitVec.toNat hn))
  · rw [if_neg hn]
    exact ⟨hw, nOf_toNat w ▸ fun h => hn (BitVec.eq_of_toNat_eq h)⟩

/-- Class 0 (R56). -/
theorem zeroClass_sound {w : Word} (hw : w.toNat / 4096 = 0) :
    SoundAnswer w (if w = 0x00E0 then .ok .cls else if w = 0x00EE then .ok .ret else .error .zeroClass) := by
  by_cases hcls : w = 0x00E0
  · rw [if_pos hcls]; exact hcls.symm
  by_cases hret : w = 0x00EE
  · rw [if_neg hcls, if_pos hret]; exact hret.symm
  rw [if_neg hcls, if_neg hret]
  exact ⟨hw, fun h => hcls (BitVec.eq_of_toNat_eq h), fun h => hret (BitVec.eq_of_toNat_eq h)⟩

/-- The decoder is right about every word, class by class. -/
theorem decodeWord_sound (w : Word) : SoundAnswer w (decodeWord w) := by
  have hlt := (classOf w).isLt
  have hnum := classOf_toNat w
  unfold decodeWord
  split
  case h_1 hc => exact zeroClass_sound (hnum ▸ hc)
  case h_6 hc => exact skip_sound (c := 5) (.inl (hnum ▸ hc)) hc rfl
  case h_9 hc => exact decodeAlu_sound hc
  case h_10 hc => exact skip_sound (c := 9) (.inr (hnum ▸ hc)) hc rfl
  case h_14 hc => exact encXyn_of_class hc
  case h_15 hc => exact hnum.symm.trans hc
  case h_16 => exact decodeF_sound (by simp only [imp_false] at *; omega)
  case h_2 hc | h_3 hc | h_11 hc | h_12 hc => exact encNnn_of_class hc
  case h_4 hc | h_5 hc | h_7 hc | h_8 hc | h_13 hc => exact encXkk_of_class hc

/-- What decodes to an instruction is that instruction's word (R63). -/
theorem encode_of_decodeWord {w : Word} {i : Instr} (h : decodeWord w = .ok i) : encode i = w := by
  have hs := decodeWord_sound w
  rwa [h] at hs

/-! ## The illegal words (R56 to R60) -/

/-- Class 8 without an instruction for the selector. -/
theorem decodeAlu_of_illegal {w : Word} (h : w.toNat % 16 = 15 ∨ (8 ≤ w.toNat % 16 ∧ w.toNat % 16 ≤ 13)) :
    decodeAlu w = .error .aluSelector := by
  rw [← nOf_toNat] at h
  unfold decodeAlu
  split
  case h_10 => rfl
  all_goals omega

/-- Class F without an instruction for the low byte. -/
theorem decodeF_of_illegal {w : Word} (h07 : w.toNat % 256 ≠ 0x07) (h15 : w.toNat % 256 ≠ 0x15)
    (h18 : w.toNat % 256 ≠ 0x18) (h1E : w.toNat % 256 ≠ 0x1E) : decodeF w = .error .fSub := by
  rw [← kkOf_toNat] at h07 h15 h18 h1E
  unfold decodeF
  split
  case h_5 => rfl
  all_goals contradiction

/-- A word that a rule makes illegal is rejected by that rule's name. -/
theorem decodeWord_of_illegal {w : Word} {r : DecodeReject} (h : IllegalAs w r) : decodeWord w = .error r := by
  unfold decodeWord
  rw [classOf_toNat]
  cases r with
  | zeroClass =>
    obtain ⟨hc, hcls, hret⟩ := h
    simp only [hc]
    rw [if_neg fun e => hcls (congrArg BitVec.toNat e), if_neg fun e => hret (congrArg BitVec.toNat e)]
  | skipNibble =>
    obtain ⟨hc, hn⟩ := h
    have hn : nOf w ≠ 0 := fun e => hn ((nOf_toNat w).symm.trans (congrArg BitVec.toNat e))
    rcases hc with hc | hc <;> simp only [hc] <;> exact if_neg hn
  | aluSelector =>
    obtain ⟨hc, hn⟩ := h
    simp only [hc]
    exact decodeAlu_of_illegal hn
  | classE =>
    have hc : w.toNat / 4096 = 14 := h
    simp only [hc]
  | fSub =>
    obtain ⟨hc, h07, h15, h18, h1E⟩ := h
    simp only [hc]
    exact decodeF_of_illegal h07 h15 h18 h1E

/-- The decoder rejects by a rule's name exactly the words that the rule makes illegal. -/
theorem decodeWord_eq_error_iff {w : Word} {r : DecodeReject} : decodeWord w = .error r ↔ IllegalAs w r := by
  refine ⟨fun h => ?_, decodeWord_of_illegal⟩
  have hs := decodeWord_sound w
  rwa [h] at hs

/-- R57 alone is an invalid encoding. -/
theorem rejectKind_eq_invalidEncoding {r : DecodeReject} : rejectKind r = .invalidEncoding ↔ r = .skipNibble := by
  cases r <;> decide

/-- R56, R58, R59 and R60 are unimplemented opcodes. -/
theorem rejectKind_eq_unimplementedOpcode {r : DecodeReject} :
    rejectKind r = .unimplementedOpcode ↔ r = .zeroClass ∨ r = .aluSelector ∨ r = .classE ∨ r = .fSub := by
  cases r <;> decide

/-- An illegal word is of one of the two kinds. -/
theorem rejectKind_cases (r : DecodeReject) : rejectKind r = .invalidEncoding ∨ rejectKind r = .unimplementedOpcode := by
  cases r <;> decide

/-- Settles O5: each kind is that of the rules `rejectKind` sends to it, and each rule's words are those of `IllegalAs`. -/
theorem illegalWords : Obligations.IllegalWords := by
  refine fun w => ⟨?_, ?_, ?_⟩
  · simp only [decodeWord_eq_error_iff, rejectKind_eq_invalidEncoding, exists_eq_right, IllegalAs]
  · simp only [decodeWord_eq_error_iff, rejectKind_eq_unimplementedOpcode, and_or_left, exists_or, exists_eq_right,
      IllegalAs]
  · cases h : decodeWord w with
    | ok i => exact .inl ⟨i, rfl⟩
    | error r => exact .inr ⟨r, rfl, rejectKind_cases r⟩

/-! ## The opcode map (R55) -/

/-- The mnemonic of what a word decodes to. -/
def decodedName (w : Word) : Except DecodeReject String := (decodeWord w).map Instr.mnemonic

theorem decodedName_eq_ok_iff {w : Word} {name : String} :
    decodedName w = .ok name ↔ ∃ i, decodeWord w = .ok i ∧ i.mnemonic = name := by
  unfold decodedName
  cases decodeWord w <;> simp [Except.map]

/-- The decoder reads the class of a word, and below it only what the class asks for: the whole word in class 0, the low digit in
classes 5, 8 and 9, the low byte in class F. Words that agree there have one mnemonic, or are illegal alike. -/
theorem decodedName_congr {w b : Word} (hc : classOf w = classOf b) (h0 : classOf b = 0x0 → w = b)
    (hn : classOf b ∈ [0x5, 0x8, 0x9] → nOf w = nOf b) (hk : classOf b = 0xF → kkOf w = kkOf b) :
    decodedName w = decodedName b := by
  have hlt := (classOf b).isLt
  have hclass (c : BitVec 4) (h : (classOf b).toNat = c.toNat) : classOf b = c := BitVec.eq_of_toNat_eq h
  unfold decodedName decodeWord
  rw [hc]
  split
  case h_1 h => rw [h0 (hclass 0 h)]
  case h_6 h => rw [hn (by simp [hclass 5 h])]; split <;> rfl
  case h_9 h => unfold decodeAlu; rw [hn (by simp [hclass 8 h])]; split <;> rfl
  case h_10 h => rw [hn (by simp [hclass 9 h])]; split <;> rfl
  case h_16 =>
    unfold decodeF
    rw [hk (hclass 15 (by simp only [imp_false] at *; change _ = 15; omega))]
    split <;> rfl
  all_goals rfl

/-- Every row's mask covers the bits that the decoder reads in the row's class. -/
theorem opcodeMap_mask_covers : ∀ e ∈ opcodeMap, classOf e.mask = 0xF ∧ (classOf e.bits = 0x0 → e.mask = 0xFFFF) ∧
    (classOf e.bits ∈ [0x5, 0x8, 0x9] → nOf e.mask = 0xF) ∧ (classOf e.bits = 0xF → kkOf e.mask = 0xFF) := by
  decide

/-- Every row's own bits are a word with the row's mnemonic. -/
theorem opcodeMap_bits_decode : ∀ e ∈ opcodeMap, decodedName e.bits = .ok e.mnemonic := by decide

/-- A word keeps every field that a mask covers. -/
theorem extractLsb'_and_of_covered {w m : Word} {start len : Nat} (h : m.extractLsb' start len = BitVec.allOnes len) :
    (w &&& m).extractLsb' start len = w.extractLsb' start len := by
  rw [BitVec.extractLsb'_and, h, BitVec.and_allOnes]

/-- A word that matches a row has the row's mnemonic: it agrees with the row's bits wherever the decoder looks. -/
theorem decodedName_of_matches {e : OpcodeRow} (he : e ∈ opcodeMap) {w : Word} (h : w &&& e.mask = e.bits) :
    decodedName w = .ok e.mnemonic := by
  obtain ⟨hclass, hword, hdigit, hbyte⟩ := opcodeMap_mask_covers e he
  rw [← opcodeMap_bits_decode e he]
  refine decodedName_congr ?_ (fun h0 => ?_) (fun hn => ?_) (fun hk => ?_)
  · exact h ▸ (extractLsb'_and_of_covered hclass).symm
  · rw [← h, hword h0]; exact BitVec.and_allOnes.symm
  · rw [← h]; exact (extractLsb'_and_of_covered (hdigit hn)).symm
  · rw [← h]; exact (extractLsb'_and_of_covered (hbyte hk)).symm

/-- Every instruction's word matches the row of its mnemonic. -/
theorem encode_inItsRow : ∀ i : Instr, Laws.InItsRow.Statement i
  | .cls => Laws.InItsRow.cls
  | .ret => Laws.InItsRow.ret
  | .jp nnn => Laws.InItsRow.jp nnn
  | .call nnn => Laws.InItsRow.call nnn
  | .seImm x kk => Laws.InItsRow.seImm x kk
  | .sneImm x kk => Laws.InItsRow.sneImm x kk
  | .seReg x y => Laws.InItsRow.seReg x y
  | .ldImm x kk => Laws.InItsRow.ldImm x kk
  | .addImm x kk => Laws.InItsRow.addImm x kk
  | .ldReg x y => Laws.InItsRow.ldReg x y
  | .orReg x y => Laws.InItsRow.orReg x y
  | .andReg x y => Laws.InItsRow.andReg x y
  | .xorReg x y => Laws.InItsRow.xorReg x y
  | .addReg x y => Laws.InItsRow.addReg x y
  | .subReg x y => Laws.InItsRow.subReg x y
  | .shr x y => Laws.InItsRow.shr x y
  | .subnReg x y => Laws.InItsRow.subnReg x y
  | .shl x y => Laws.InItsRow.shl x y
  | .sneReg x y => Laws.InItsRow.sneReg x y
  | .ldI nnn => Laws.InItsRow.ldI nnn
  | .jpV0 nnn => Laws.InItsRow.jpV0 nnn
  | .rnd x kk => Laws.InItsRow.rnd x kk
  | .drw x y n => Laws.InItsRow.drw x y n
  | .ldVxDt x => Laws.InItsRow.ldVxDt x
  | .ldDtVx x => Laws.InItsRow.ldDtVx x
  | .ldStVx x => Laws.InItsRow.ldStVx x
  | .addI x => Laws.InItsRow.addI x

/-- A mnemonic names one row. -/
theorem opcodeMap_eq_of_mnemonic {e e' : OpcodeRow} (he : e ∈ opcodeMap) (he' : e' ∈ opcodeMap)
    (h : e.mnemonic = e'.mnemonic) : e = e' :=
  List.inj_on_of_nodup_map (f := OpcodeRow.mnemonic) (by decide) he he' h

/-- A word that decodes to an instruction matches the row of the instruction's mnemonic. -/
theorem matches_of_decodeWord {e : OpcodeRow} (he : e ∈ opcodeMap) {w : Word} {i : Instr} (h : decodeWord w = .ok i)
    (hi : i.mnemonic = e.mnemonic) : w &&& e.mask = e.bits := by
  obtain ⟨e', he', hname, hmatch⟩ := encode_inItsRow i
  cases opcodeMap_eq_of_mnemonic he' he (hname.trans hi)
  rwa [encode_of_decodeWord h] at hmatch

/-- Settles O4: a matching word agrees with the row's bits wherever the decoder looks, and what decodes is its instruction's word,
which lies in the row of its mnemonic. -/
theorem opcodeMapRows : Obligations.OpcodeMapRows := fun _ he _ =>
  ⟨fun h => decodedName_eq_ok_iff.mp (decodedName_of_matches he h), fun ⟨_, h, hi⟩ => matches_of_decodeWord he h hi⟩

end Sys2Proof.Machine

namespace Sys2Proof.Machine

/-! # The step cycle (40_step_cycle) -/

/-! ## A step whose fetch succeeds (R70 to R73, R76) -/

/-- The word at `pc` fits 16 bits. -/
theorem wordAt_toNat (s : State) : (BitVec.ofNat 16 (wordAt s)).toNat = wordAt s := by
  rw [wordAt_eq, wordOfBytes_toNat, wordAt]

/-- A legal word at `pc` is run from the advanced state. -/
theorem step_of_legal {s : State} {i : Instr} (hf : s.fault = none) (hp : s.pc.toNat ≤ 4094)
    (hd : decodeWord (BitVec.ofNat 16 (wordAt s)) = .ok i) : step s = exec i s.advance := by
  rw [step_of_fetched hf hp]
  simp only [execWord, hd]

/-- An illegal word at `pc` sets the latch of the advanced state. -/
theorem step_of_illegal {s : State} {r : DecodeReject} (hf : s.fault = none) (hp : s.pc.toNat ≤ 4094)
    (hd : decodeWord (BitVec.ofNat 16 (wordAt s)) = .error r) :
    step s = .next (s.advance.setFault (rejectKind r)) := by
  rw [step_of_fetched hf hp]
  simp only [execWord, hd, raise]

/-- Settles O6: a step whose fetch succeeds executes the word at `pc`, and a legal word is its instruction. -/
theorem stepRunsDecoded : Obligations.StepRunsDecoded := fun _ _ hf hp hd => step_of_legal hf hp hd

/-- The advance changes `pc` alone. -/
theorem frame_advance (s : State) : Frame s s.advance (· = .pc) := frame_setPc s _

/-- Settles O7: the fetch answers the word of the two bytes and the advanced state, or faults, and then only the latch is set. -/
theorem fetchReadsOrFaults : Obligations.FetchReadsOrFaults := by
  refine fun s => ⟨fun hp => ?_, fun hp hf => ?_⟩
  · rcases fetch_cases s with ⟨-, e⟩ | ⟨hout, -⟩
    · exact ⟨_, _, e, wordOfBytes_toNat _ _, State.advance_toNat hp, (frame_advance s).of_part (by simp)⟩
    · omega
  · exact ⟨_, step_of_fetch_fault hf hp, rfl, (frame_setFault s _).of_part (by simp)⟩

/-- The kind of an illegal word is told by its class: only classes 5 and 9 have an invalid encoding (R56 to R60). -/
theorem rejectKind_of_illegalAs {w : Word} {r : DecodeReject} (h : IllegalAs w r) :
    rejectKind r =
      if w.toNat / 4096 = 5 ∨ w.toNat / 4096 = 9 then .invalidEncoding else .unimplementedOpcode := by
  cases r with
  | skipNibble => exact (if_pos h.left).symm
  | zeroClass | aluSelector | classE | fSub =>
    simp only [IllegalAs] at h
    exact (if_neg (by omega)).symm

/-- Settles O8: the latch is set after the advance, and the class of the word tells the kind. -/
theorem illegalWordStep : Obligations.IllegalWordStep := by
  intro s r hf hp hd
  refine ⟨_, step_of_illegal hf hp hd, State.advance_toNat hp, ?_, ?_⟩
  · exact ((frame_advance s).of_part (by simp)).trans ((frame_setFault _ _).of_part (by simp))
  · have hkind := rejectKind_of_illegalAs (decodeWord_eq_error_iff.mp hd)
    rw [wordAt_toNat] at hkind
    rw [State.setFault_fault, hkind]

/-! ## A faulted machine (R75 c, R138, decision D15) -/

/-- A state that a step gives back is given back by every run. -/
theorem run_of_fixed {s : State} (h : step s = .next s) : ∀ n, core.run n s = .next s
  | 0 => core_run_zero s
  | n + 1 => (core_run_succ n h).trans (run_of_fixed h n)

/-- Settles O9: a faulted state is a fixed point of the step. -/
theorem faultedRunStays : Obligations.FaultedRunStays := fun _ _ n hf => run_of_fixed (step_of_faulted hf) n

/-! ## Every step gives a next state, but for the open case of `ADD I,Vx` (R75, R102, R137; log 9) -/

/-- `ADD I,Vx` gives a next state, or the sum is beyond 16 bits and the open parameter says to fault. -/
theorem exec_addI_completes_or_overflows (x : Reg) (s : State) :
    (∃ t, exec (.addI x) s = .next t) ∨
    (exec (.addI x) s = .fault .iAddOverflow ∧ Config.iAddOverflow = .fault ∧ 0xFFFF < s.i.toNat + (s.reg x).toNat) := by
  rw [exec_addI]
  by_cases hsum : s.i.toNat + (s.reg x).toNat ≤ 0xFFFF
  · exact .inl ⟨_, if_pos (.inl hsum)⟩
  · cases hopen : Config.iAddOverflow with
    | wrap => exact .inl ⟨_, if_pos (.inr rfl)⟩
    | fault => exact .inr ⟨if_neg (by simp [hsum]), rfl, by omega⟩

/-- Every instruction but `ADD I,Vx` gives a next state from every state. -/
theorem exec_completes {i : Instr} (hi : ∀ x, i ≠ .addI x) (s : State) : ∃ t, exec i s = .next t := by
  cases i with
  | addI x => exact absurd rfl (hi x)
  | ret => rcases exec_ret_cases s with ⟨below, -, e⟩ | ⟨-, e⟩ <;> exact ⟨_, e⟩
  | call nnn => rcases exec_call_cases nnn s with ⟨top, -, e⟩ | ⟨-, e⟩ <;> exact ⟨_, e⟩
  | drw x y n => rcases exec_drw_cases x y n s with ⟨scr, any, -, e⟩ | ⟨scr, -, e⟩ <;> exact ⟨_, e⟩
  -- the meaning of each of the others is one next state
  | _ => exact ⟨_, rfl⟩

/-- Settles O10: of the four ways a step can go, only the run of an `ADD I,Vx` can end without a next state. -/
theorem stepCompletesOrIAddOverflow : Obligations.StepCompletesOrIAddOverflow := by
  intro s
  rcases step_cases s with ⟨_, -, e⟩ | ⟨-, -, e⟩ | ⟨-, -, r, -, e⟩ | ⟨hf, -, i, hd, e⟩
  · exact .inl ⟨_, e⟩
  · exact .inl ⟨_, e⟩
  · exact .inl ⟨_, e⟩
  · rw [e]
    by_cases hi : ∃ x, i = .addI x
    · obtain ⟨x, rfl⟩ := hi
      rcases exec_addI_completes_or_overflows x s.advance with h | ⟨hfault, hopen, hsum⟩
      · exact .inl h
      · exact .inr ⟨hfault, hf, hopen, x, hd, hsum⟩
    · exact .inl (exec_completes (fun x h => hi ⟨x, h⟩) s.advance)

/-! ## The idle state (R77, decision D21) -/

/-- A word of class 1 is a jump to its low twelve bits (R81). -/
theorem decodeWord_jp {w : Word} (h : w.toNat / 4096 = 1) : decodeWord w = .ok (.jp (nnnOf w)) := by
  unfold decodeWord
  simp only [classOf_toNat, h]

/-- The word at an idle `pc` is the jump to that `pc`. -/
theorem decodeWord_of_idleAt {s : State} {a : Addr12} (h : IdleAt s a) :
    decodeWord (BitVec.ofNat 16 (wordAt s)) = .ok (.jp a) := by
  obtain ⟨-, -, -, hword⟩ := h
  have ha := a.isLt
  have hnnn : nnnOf (BitVec.ofNat 16 (wordAt s)) = a := by
    apply BitVec.eq_of_toNat_eq
    rw [nnnOf_toNat, wordAt_toNat]
    omega
  rw [decodeWord_jp (by rw [wordAt_toNat]; omega), hnnn]

/-- Moving `pc` back after the advance undoes it. -/
theorem State.advance_setPc_back (s : State) : s.advance.setPc s.pc = s := rfl

/-- Settles O13: the step advances `pc` and jumps back to where it was. -/
theorem idleStaysIdle : Obligations.IdleStaysIdle := by
  intro s a h
  have hd := decodeWord_of_idleAt h
  obtain ⟨hf, hpc, hle, -⟩ := h
  have hp : s.pc.toNat ≤ 4094 := by rwa [hpc, addrOperand_toNat]
  calc step s = exec (.jp a) s.advance := step_of_legal hf hp hd
    _ = .next (s.advance.setPc s.pc) := by rw [hpc]; rfl
    _ = .next s := by rw [State.advance_setPc_back]

end Sys2Proof.Machine

namespace Sys2Proof.Machine

/-! # Control transfer (41_control_flow) -/

/-! ## The call stack (R80, R82, R88) -/

/-- Settles O14: a return address is held, and `pc` takes it while `sp` falls by one, or the stack is empty and only the latch
is set. -/
theorem retEffect : Obligations.RetEffect := by
  refine fun s => ⟨fun hne => ?_, fun hempty => ?_⟩
  · rcases exec_ret_cases s with ⟨below, hsp, e⟩ | ⟨hempty, -⟩
    · have hframe : FrameBut s ((s.setSp below).setPc (s.slot s.sp)) [.pc, .sp] :=
        ((frame_setSp s below).of_part (by simp)).trans ((frame_setPc _ _).of_part (by simp))
      exact ⟨_, e, rfl, Nat.eq_sub_of_add_eq hsp.symm, hframe⟩
    · exact absurd hempty hne
  · exact ⟨_, exec_ret_of_empty hempty, rfl, (frame_setFault s _).of_part (by simp)⟩

/-- Settles O16: there is room, and the slot above `sp` takes `pc`, or the stack is full and only the latch is set. -/
theorem callEffect : Obligations.CallEffect := by
  refine fun nnn s => ⟨fun hne => ?_, fun hfull => ?_⟩
  · rcases exec_call_cases nnn s with ⟨top, htop, e⟩ | ⟨hfull, -⟩
    · have hframe : FrameBut s (((s.setSp top).setSlot top s.pc).setPc (addrOperand nnn)) [.pc, .sp, .slot top] :=
        ((frame_setSp s top).of_part (by simp)).trans
          (((frame_setSlot _ top _).of_part (by simp)).trans ((frame_setPc _ _).of_part (by simp)))
      exact ⟨_, e, htop, State.setSlot_slot_self _ top _, addrOperand_toNat nnn, hframe⟩
    · exact absurd hfull hne
  · exact ⟨_, exec_call_of_full nnn hfull, rfl, (frame_setFault s _).of_part (by simp)⟩

/-- Settles O20: `CALL` leaves `sp` above 0 with the old `pc` in its slot, so `RET` pops that word and takes `sp` back. -/
theorem callThenRet : Obligations.CallThenRet := by
  intro nnn s hne
  obtain ⟨t, hcall, htsp, htop, -, -⟩ := (callEffect nnn s).1 hne
  refine ⟨t, hcall, fun u husp huslot => ?_⟩
  have hheld : u.sp.val = s.sp.val + 1 := by rw [husp, htsp]
  obtain ⟨r, hret, hrpc, hrsp, -⟩ := (retEffect u).1 (by omega)
  exact ⟨r, hret, (hrpc.trans huslot).trans htop, Fin.ext (by omega)⟩

/-! ## Jumps (R81, R87) -/

/-- `JP nnn` sets `pc` to its operand. -/
theorem exec_jp (nnn : Addr12) (s : State) : exec (.jp nnn) s = .next (s.setPc (addrOperand nnn)) := rfl

/-- `JP V0,nnn` sets `pc` to the sum of its operand and `V[0]`. -/
theorem exec_jpV0 (nnn : Addr12) (s : State) :
    exec (.jpV0 nnn) s = .next (s.setPc (addrOperand nnn + zext16 (s.reg 0))) := rfl

/-- The sum of an address operand and a byte does not wrap (R87). -/
theorem jpV0_target_toNat (nnn : Addr12) (b : Byte) : (addrOperand nnn + zext16 b).toNat = nnn.toNat + b.toNat := by
  have hn := nnn.isLt
  have hb := b.isLt
  rw [BitVec.toNat_add, addrOperand_toNat, zext16_toNat]
  omega

/-- Settles O15: the one write is that of `pc`, and widening the operand keeps its value. -/
theorem jpEffect : Obligations.JpEffect := fun nnn s =>
  ⟨_, exec_jp nnn s, addrOperand_toNat nnn, (frame_setPc s _).of_part (by simp)⟩

/-- Settles O19: the one write is that of `pc`, and the sum does not wrap. -/
theorem jpV0Effect : Obligations.JpV0Effect := fun nnn s =>
  ⟨_, exec_jpV0 nnn s, jpV0_target_toNat nnn (s.reg 0), (frame_setPc s _).of_part (by simp)⟩

/-! ## Skips (R83 to R86) -/

/-- An instruction that skips on the equality of two bytes. -/
theorem skip_on_eq_effect {i : Instr} {s : State} {a b : Byte} (h : exec i s = .next (s.skipIf (a == b))) :
    ∃ t, exec i s = .next t ∧ t.pc = (if a = b then s.pc + 2 else s.pc) ∧ FrameBut s t [.pc] := by
  refine ⟨_, h, ?_, (frame_skipIf s _).of_part (by simp)⟩
  simp only [State.skipIf_pc, beq_iff_eq]

/-- An instruction that skips on the inequality of two bytes. -/
theorem skip_on_ne_effect {i : Instr} {s : State} {a b : Byte} (h : exec i s = .next (s.skipIf (a != b))) :
    ∃ t, exec i s = .next t ∧ t.pc = (if a = b then s.pc else s.pc + 2) ∧ FrameBut s t [.pc] := by
  refine ⟨_, h, ?_, (frame_skipIf s _).of_part (by simp)⟩
  simp only [State.skipIf_pc, bne_iff_ne, ite_not, ne_eq]

/-- Settles O17: the two skips test `V[x]` against `kk`, one for equality and one for inequality. -/
theorem skipImmEffect : Obligations.SkipImmEffect := fun _ _ _ => ⟨skip_on_eq_effect rfl, skip_on_ne_effect rfl⟩

/-- Settles O18: the two skips test `V[x]` against `V[y]`, one for equality and one for inequality. -/
theorem skipRegEffect : Obligations.SkipRegEffect := fun _ _ _ => ⟨skip_on_eq_effect rfl, skip_on_ne_effect rfl⟩

end Sys2Proof.Machine

namespace Sys2Proof.Machine

/-! # Loads, arithmetic, logic and the random byte (42_load_alu) -/

/-! ## Reading the registers an instruction wrote -/

theorem State.setReg_reg_of_ne (s : State) {x r : Reg} (b : Byte) (h : r ≠ x) : (s.setReg x b).reg r = s.reg r :=
  (State.setReg_reg s x b r).trans (if_neg h)

/-- The flag is written last, so it stands for every destination (decision D11). -/
@[simp] theorem State.setResultThenFlag_reg_vf (s : State) (x : Reg) (result flag : Byte) :
    (s.setResultThenFlag x result flag).reg Reg.vf = flag := State.setReg_reg_self _ _ _

theorem State.setResultThenFlag_reg_of_ne_vf (s : State) {x : Reg} (result flag : Byte) (h : x ≠ Reg.vf) :
    (s.setResultThenFlag x result flag).reg x = result :=
  (State.setReg_reg_of_ne _ flag h).trans (State.setReg_reg_self s x result)

/-- The result is written last, so it stands for every destination (decision D11). -/
@[simp] theorem State.setFlagThenResult_reg_self (s : State) (x : Reg) (flag result : Byte) :
    (s.setFlagThenResult x flag result).reg x = result := State.setReg_reg_self _ _ _

theorem State.setFlagThenResult_reg_vf_of_ne (s : State) {x : Reg} (flag result : Byte) (h : x ≠ Reg.vf) :
    (s.setFlagThenResult x flag result).reg Reg.vf = flag :=
  (State.setReg_reg_of_ne _ result h.symm).trans (State.setReg_reg_self s Reg.vf flag)

/-! ## The arithmetic of the results, as numbers -/

theorem byte_sub_toNat (a b : Byte) : (a - b).toNat = (a.toNat + 256 - b.toNat) % 256 := by
  have hb := b.isLt
  rw [BitVec.toNat_sub]
  omega

theorem byte_shiftRight_one_toNat (a : Byte) : (a >>> 1).toNat = a.toNat / 2 := by
  rw [BitVec.toNat_ushiftRight, Nat.shiftRight_eq_div_pow, Nat.pow_one]

theorem byte_shiftLeft_one_toNat (a : Byte) : (a <<< 1).toNat = a.toNat * 2 % 256 := by
  rw [BitVec.toNat_shiftLeft, Nat.shiftLeft_eq, Nat.pow_one]

theorem word_add_zext16_toNat (w : Word) (b : Byte) : (w + zext16 b).toNat = (w.toNat + b.toNat) % 65536 := by
  rw [BitVec.toNat_add, zext16_toNat]

/-- A masked byte has no bit outside the mask (R103). -/
theorem byte_masked_and_not_mask (r kk : Byte) : r &&& kk &&& ~~~kk = 0 := by
  rw [BitVec.and_assoc, BitVec.and_not_self]
  exact BitVec.and_zero

/-! ## The three shapes of an instruction with a destination register (R104, R105) -/

section
variable {i : Instr} {s : State} {x : Reg} {result flag : Byte}

/-- An instruction that writes its destination and no flag. -/
theorem result_effect (h : exec i s = .next (s.setReg x result)) :
    ∃ t, exec i s = .next t ∧ t.reg x = result ∧ FrameBut s t [.reg x] :=
  ⟨_, h, State.setReg_reg_self s x result, (frame_setReg s x result).of_part (by simp)⟩

/-- An instruction that writes its destination and no flag, read as to each of the eight bits. -/
theorem result_bits_effect {f : Nat → Bool} (h : exec i s = .next (s.setReg x result))
    (hbits : ∀ j, result.getLsbD j = f j) :
    ∃ t, exec i s = .next t ∧ FrameBut s t [.reg x] ∧ ∀ j, j < 8 → (t.reg x).getLsbD j = f j := by
  obtain ⟨t, e, hreg, hframe⟩ := result_effect h
  exact ⟨t, e, hframe, fun j _ => hreg ▸ hbits j⟩

variable {m k : Nat}

/-- An instruction that writes its result, then its flag. -/
theorem result_then_flag_effect (h : exec i s = .next (s.setResultThenFlag x result flag)) (hr : result.toNat = m)
    (hf : flag.toNat = k) :
    ∃ t, exec i s = .next t ∧ (x ≠ Reg.vf → (t.reg x).toNat = m) ∧ (t.reg Reg.vf).toNat = k ∧
      FrameBut s t [.reg x, .reg Reg.vf] := by
  refine ⟨_, h, fun hx => ?_, ?_, frame_setResultThenFlag s x result flag⟩
  · rw [State.setResultThenFlag_reg_of_ne_vf s result flag hx, hr]
  · rw [State.setResultThenFlag_reg_vf, hf]

/-- An instruction that writes its flag, then its result. -/
theorem flag_then_result_effect (h : exec i s = .next (s.setFlagThenResult x flag result)) (hr : result.toNat = m)
    (hf : flag.toNat = k) :
    ∃ t, exec i s = .next t ∧ (t.reg x).toNat = m ∧ (x ≠ Reg.vf → (t.reg Reg.vf).toNat = k) ∧
      FrameBut s t [.reg x, .reg Reg.vf] := by
  refine ⟨_, h, ?_, fun hx => ?_, frame_setFlagThenResult s x flag result⟩
  · rw [State.setFlagThenResult_reg_self, hr]
  · rw [State.setFlagThenResult_reg_vf_of_ne s flag result hx, hf]

end

/-! ## The arithmetic instructions with a flag (R96 to R100) -/

/-- Settles O24: the result is written before the carry. -/
theorem addRegEffect : Obligations.AddRegEffect := fun _ _ _ =>
  result_then_flag_effect rfl (BitVec.toNat_add _ _) (carryFlag_toNat _ _)

/-- Settles O25: the result is written before the not-borrow. -/
theorem subRegEffect : Obligations.SubRegEffect := fun _ _ _ =>
  result_then_flag_effect rfl (byte_sub_toNat _ _) (noBorrowFlag_toNat _ _)

/-- Settles O26: `SUB` with the operands exchanged. -/
theorem subnRegEffect : Obligations.SubnRegEffect := fun _ _ _ =>
  result_then_flag_effect rfl (byte_sub_toNat _ _) (noBorrowFlag_toNat _ _)

/-- Settles O27: the dropped bit is written before the result. -/
theorem shrEffect : Obligations.ShrEffect := fun _ _ _ =>
  flag_then_result_effect rfl (byte_shiftRight_one_toNat _) (droppedLowFlag_toNat _)

/-- Settles O28: the dropped bit is written before the result. -/
theorem shlEffect : Obligations.ShlEffect := fun _ _ _ =>
  flag_then_result_effect rfl (byte_shiftLeft_one_toNat _) (droppedHighFlag_toNat _)

/-! ## The address register (R101, R102) -/

/-- `ADD I,Vx` where the sum fits or the open parameter says to wrap: one write, of `I`. -/
theorem addI_effect_mod {x : Reg} {s : State}
    (h : s.i.toNat + (s.reg x).toNat ≤ 0xFFFF ∨ Config.iAddOverflow = .wrap) :
    ∃ t, exec (.addI x) s = .next t ∧ t.i.toNat = (s.i.toNat + (s.reg x).toNat) % 65536 ∧ FrameBut s t [.addr] :=
  ⟨_, (exec_addI x s).trans (if_pos h), word_add_zext16_toNat _ _, (frame_setI s _).of_part (by simp)⟩

/-- Settles O30: a sum that fits is its own remainder; beyond that, the two values of the open parameter. -/
theorem addIEffect : Obligations.AddIEffect := by
  refine fun x s => ⟨fun hfits => ?_, fun hover => ?_⟩
  · obtain ⟨t, e, hi, hframe⟩ := addI_effect_mod (.inl hfits)
    exact ⟨t, e, hi.trans (Nat.mod_eq_of_lt (by omega)), hframe⟩
  · cases hopen : Config.iAddOverflow with
    | wrap => exact addI_effect_mod (.inr hopen)
    | fault =>
      have hstops : ¬ (s.i.toNat + (s.reg x).toNat ≤ 0xFFFF ∨ Config.iAddOverflow = .wrap) := by
        simp only [hopen, reduceCtorEq, or_false]
        omega
      exact (exec_addI x s).trans (if_neg hstops)

/-- Settles O29: the one write is that of `I`, and widening the operand keeps its value. -/
theorem ldIEffect : Obligations.LdIEffect := fun nnn s =>
  ⟨s.setI (addrOperand nnn), rfl, addrOperand_toNat nnn, (frame_setI s _).of_part (by simp)⟩

/-! ## The instructions without a flag (R90 to R95) -/

/-- Settles O21: each load is one register write. -/
theorem loadRegEffect : Obligations.LoadRegEffect := fun _ _ _ _ => ⟨result_effect rfl, result_effect rfl⟩

/-- Settles O22: one register write, of the sum modulo 256. -/
theorem addImmEffect : Obligations.AddImmEffect := by
  intro x kk s
  obtain ⟨t, e, hreg, hframe⟩ := result_effect (i := .addImm x kk) (s := s) rfl
  exact ⟨t, e, (congrArg BitVec.toNat hreg).trans (BitVec.toNat_add _ _), hframe⟩

/-- Settles O23: one register write each, whose bits are those of the two operands combined. -/
theorem logicEffect : Obligations.LogicEffect := fun _ _ _ =>
  ⟨result_bits_effect rfl fun _ => BitVec.getLsbD_or, result_bits_effect rfl fun _ => BitVec.getLsbD_and,
    result_bits_effect rfl fun _ => BitVec.getLsbD_xor⟩

/-! ## The random byte (R103) -/

/-- `RND Vx,kk` takes one byte and writes it, masked. -/
theorem exec_rnd (x : Reg) (kk : Byte) (s : State) :
    exec (.rnd x kk) s = .next ((s.setRnd (s.rndDraws + 1)).setReg x (Config.rndByte s.rndDraws &&& kk)) := rfl

/-- Settles O31: one byte is taken and one register written. -/
theorem rndEffect : Obligations.RndEffect := by
  intro x kk s
  have hreg := State.setReg_reg_self (s.setRnd (s.rndDraws + 1)) x (Config.rndByte s.rndDraws &&& kk)
  have hframe : FrameBut s ((s.setRnd (s.rndDraws + 1)).setReg x (Config.rndByte s.rndDraws &&& kk)) [.reg x, .rnd] :=
    ((frame_setRnd s _).of_part (by simp)).trans ((frame_setReg _ x _).of_part (by simp))
  exact ⟨_, exec_rnd x kk s, hreg, rfl, by rw [hreg, byte_masked_and_not_mask], hframe⟩

end Sys2Proof.Machine

namespace Sys2Proof.Machine

/-! # Display (43_display) -/

/-! ## Clearing the screen (R111, R113) -/

/-- Settles O32: the one write is that of the pixel grid, and every pixel of the cleared grid is false. -/
theorem clsEffect : Obligations.ClsEffect := fun s =>
  ⟨s.setScreen clearScreen, rfl, fun c r => clearScreen_getElem c.val r.val r.isLt c.isLt, frame_setScreen s _⟩

/-! ## Whether a screen changed -/

/-- Two screens differ exactly if some pixel does. -/
theorem screen_ne_iff {a b : Screen} : a ≠ b ↔ ∃ (c : Fin 64) (r : Fin 32), a[r.val][c.val] ≠ b[r.val][c.val] := by
  constructor
  · intro hne
    by_contra hcon
    push Not at hcon
    exact hne (screen_ext fun c r hc hr => hcon ⟨c, hc⟩ ⟨r, hr⟩)
  · rintro ⟨c, r, hne⟩ rfl
    exact hne rfl

/-- Replacing a row changes the screen exactly if it changes the row. -/
theorem screen_set_bne_self (scr : Screen) (r : Nat) (row : Vector Bool 64) (h : r < 32) :
    (scr.set r row h != scr) = (row != scr[r]) := by
  have hself : scr.set r row h = scr ↔ row = scr[r] := by
    constructor
    · intro e
      calc row = (scr.set r row h)[r] := (Vector.getElem_set_self h).symm
        _ = scr[r] := by rw [e]
    · rintro rfl
      exact Vector.set_getElem_self h
  rw [Bool.eq_iff_iff, bne_iff_ne, bne_iff_ne, ne_eq, hself]

/-! ## One row (R112) -/

/-- The screen after `byte` is drawn at column `c0` of row `r0`. -/
def rowDrawn (scr : Screen) (c0 r0 : Nat) (byte : Byte) (h : r0 < 32) : Screen :=
  scr.set r0 (overwriteRow scr[r0] c0 byte) h

theorem rowDrawn_getElem (scr : Screen) (c0 r0 : Nat) (byte : Byte) (h : r0 < 32) (c r : Nat) (hc : c < 64)
    (hr : r < 32) : (rowDrawn scr c0 r0 byte h)[r][c] =
      if r = r0 ∧ c0 ≤ c ∧ c < c0 + 8 then byte.getLsbD (7 - (c - c0)) else scr[r][c] := by
  rw [rowDrawn, screen_set_getElem]
  by_cases hrow : r = r0
  · subst hrow
    simp only [overwriteRow_getElem, true_and, if_true]
  · rw [if_neg hrow, if_neg fun hcov => hrow hcov.1]

/-- `draw_row` in range: the screen with the row drawn, and whether the screen changed. -/
theorem drawRow_of_lt (scr : Screen) (c0 : Nat) {r0 : Nat} (byte : Byte) (h : r0 < 32) :
    drawRow scr c0 r0 byte = .ok (rowDrawn scr c0 r0 byte h, rowDrawn scr c0 r0 byte h != scr) := by
  rcases drawRow_cases scr c0 r0 byte with ⟨_, e⟩ | ⟨_, _⟩
  · rw [e, rowDrawn, screen_set_bne_self]
  · omega

/-- `draw_row` off the bottom (decision D14). -/
theorem drawRow_of_le (scr : Screen) (c0 : Nat) {r0 : Nat} (byte : Byte) (h : 32 ≤ r0) :
    drawRow scr c0 r0 byte = .error .memoryOutOfBounds := by
  rcases drawRow_cases scr c0 r0 byte with ⟨_, _⟩ | ⟨_, e⟩
  · omega
  · exact e

/-- Settles O33: the drawn row pixel by pixel, and a changed screen as a changed pixel. -/
theorem drawRowPixels : Obligations.DrawRowPixels := by
  refine fun scr c0 r0 byte => ⟨fun h => ⟨_, _, drawRow_of_lt scr c0 byte h, fun c r => ?_, ?_⟩, drawRow_of_le scr c0 byte⟩
  · exact rowDrawn_getElem scr c0 r0 byte h c.val r.val c.isLt r.isLt
  · rw [bne_iff_ne, screen_ne_iff]

/-! ## One row as the spec's loop (R112) -/

theorem pixelAt_eq_getElem (scr : Screen) {c r : Nat} (hc : c < 64) (hr : r < 32) : pixelAt scr c r = scr[r][c] :=
  dif_pos ⟨hr, hc⟩

/-- A pixel of the screen after one pixel is written. -/
theorem setPixelAt_getElem (scr : Screen) {c0 r0 : Nat} (b : Bool) (hc0 : c0 < 64) (hr0 : r0 < 32) (c r : Nat)
    (hc : c < 64) (hr : r < 32) :
    (setPixelAt scr c0 r0 b)[r][c] = if r = r0 ∧ c = c0 then b else scr[r][c] := by
  simp only [setPixelAt, dif_pos (And.intro hr0 hc0), screen_set_getElem]
  by_cases hrow : r = r0
  · subst hrow
    simp only [Vector.getElem_set, true_and, if_true, eq_comm]
  · rw [if_neg hrow, if_neg fun hpix => hrow hpix.1]

/-- Writing to a pixel the value it has changes nothing. -/
theorem setPixelAt_eq_self {scr : Screen} {c0 r0 : Nat} {b : Bool} (hc0 : c0 < 64) (hr0 : r0 < 32)
    (h : pixelAt scr c0 r0 = b) : setPixelAt scr c0 r0 b = scr := by
  refine screen_ext fun c r hc hr => ?_
  rw [setPixelAt_getElem scr b hc0 hr0 c r hc hr]
  split
  case isTrue hpix =>
    obtain ⟨rfl, rfl⟩ := hpix
    rw [← h, pixelAt_eq_getElem scr hc hr]
  case isFalse => rfl

/-- A pixel of the screen after `k` columns, from column `c0 + j` on, are written. -/
theorem drawColumns_getElem (c0 : Nat) {r0 : Nat} (byte : Byte) (hr0 : r0 < 32) (c r : Nat) (hc : c < 64)
    (hr : r < 32) : ∀ (k j : Nat) (scr : Screen) (changed : Bool), j + k ≤ 64 - c0 →
    (drawColumns c0 r0 byte k j scr changed).1[r][c] =
      if r = r0 ∧ c0 + j ≤ c ∧ c < c0 + j + k then byte.getLsbD (7 - (c - c0)) else scr[r][c]
  | 0, j, scr, changed, _ => by
    rw [drawColumns, if_neg (by omega)]
  | k + 1, j, scr, changed, hjk => by
    have hcol : c0 + j < 64 := by omega
    rw [drawColumns, drawColumns_getElem c0 byte hr0 c r hc hr k (j + 1) _ _ (by omega),
      setPixelAt_getElem scr _ hcol hr0 c r hc hr]
    by_cases hfirst : r = r0 ∧ c = c0 + j
    · have hj : c - c0 = j := by omega
      rw [if_neg (by omega), if_pos hfirst, if_pos (by omega), hj]
    · have hrest : (r = r0 ∧ c0 + (j + 1) ≤ c ∧ c < c0 + (j + 1) + k) ↔
          (r = r0 ∧ c0 + j ≤ c ∧ c < c0 + j + (k + 1)) := by omega
      simp only [if_neg hfirst, hrest]

/-- The loop's report: some pixel had changed before, or the loop changed the screen. No later column is the first one again, so a
first pixel that changed stays changed. -/
theorem drawColumns_changed (c0 : Nat) {r0 : Nat} (byte : Byte) (hr0 : r0 < 32) :
    ∀ (k j : Nat) (scr : Screen) (changed : Bool), j + k ≤ 64 - c0 →
    (drawColumns c0 r0 byte k j scr changed).2 = (changed || (drawColumns c0 r0 byte k j scr changed).1 != scr)
  | 0, j, scr, changed, _ => by simp [drawColumns]
  | k + 1, j, scr, changed, hjk => by
    have hcol : c0 + j < 64 := by omega
    have hfirst := drawColumns_getElem c0 byte hr0 (c0 + j) r0 hcol hr0 (k + 1) j scr changed hjk
    rw [if_pos (by omega), Nat.add_sub_cancel_left, drawColumns] at hfirst
    rw [drawColumns, drawColumns_changed c0 byte hr0 k (j + 1) _ _ (by omega), Bool.or_assoc]
    by_cases hsame : pixelAt scr (c0 + j) r0 = byte.getLsbD (7 - j)
    · rw [setPixelAt_eq_self hcol hr0 hsame, hsame, bne_self_eq_false, Bool.false_or]
    · have hne : (drawColumns c0 r0 byte k (j + 1) (setPixelAt scr (c0 + j) r0 (byte.getLsbD (7 - j)))
          (changed || pixelAt scr (c0 + j) r0 != byte.getLsbD (7 - j))).1 ≠ scr := by
        intro e
        rw [e] at hfirst
        exact hsame ((pixelAt_eq_getElem scr hcol hr0).trans hfirst)
      rw [bne_iff_ne.mpr hne, bne_iff_ne.mpr hsame, Bool.true_or]

/-- The loop over the columns that exist draws the row. -/
theorem drawColumns_eq_rowDrawn (scr : Screen) (c0 : Nat) {r0 : Nat} (byte : Byte) (h : r0 < 32) :
    (drawColumns c0 r0 byte (min 8 (64 - c0)) 0 scr false).1 = rowDrawn scr c0 r0 byte h := by
  refine screen_ext fun c r hc hr => ?_
  have hclip : (r = r0 ∧ c0 + 0 ≤ c ∧ c < c0 + 0 + min 8 (64 - c0)) ↔ (r = r0 ∧ c0 ≤ c ∧ c < c0 + 8) := by omega
  rw [drawColumns_getElem c0 byte h c r hc hr _ 0 scr false (by omega), rowDrawn_getElem scr c0 r0 byte h c r hc hr]
  simp only [hclip]

/-- Settles O34: the loop writes the pixels the row write does, and reports a changed screen as it does. -/
theorem drawRowIsTheSpecLoop : Obligations.DrawRowIsTheSpecLoop := by
  intro scr c0 r byte
  unfold drawRowLoop
  by_cases h : r < 32
  · rw [if_neg (by omega), drawRow_of_lt scr c0 byte h, ← drawColumns_eq_rowDrawn scr c0 byte h]
    have hreport := drawColumns_changed c0 byte h (min 8 (64 - c0)) 0 scr false (by omega)
    rw [Bool.false_or] at hreport
    rw [← hreport]
  · rw [if_pos (by omega), drawRow_of_le scr c0 byte (by omega)]

/-! ## Sprites (R114) -/

theorem changeFlag_true : changeFlag true = 1 := rfl

theorem changeFlag_false : changeFlag false = 0 := rfl

/-- Settles O35: every row is in range, so the sprite is drawn, and the flag says whether the screen changed. -/
theorem drwCompletes : Obligations.DrwCompletes := by
  intro x y n s hrow hbyte
  obtain ⟨scr, any, hdraw, hover, hany⟩ := drawRows_ok s.mem s.i.toNat (s.reg x).toNat (s.reg y).toNat (rowCount n) 0
    s.screen false (by unfold rowCount; omega) (by unfold rowCount; omega)
  have hchanged : any = true ↔ ∃ c r, ((s.setScreen scr).setReg Reg.vf (changeFlag any)).pixel c r ≠ s.pixel c r :=
    (hany.trans (or_iff_right Bool.false_ne_true)).trans screen_ne_iff
  refine ⟨_, exec_drw_of_ok hdraw, drawn_of_rowsOver hover rfl, fun hsome => ?_, fun hnone => ?_, ?_⟩
  · rw [State.setReg_reg_self, hchanged.mpr hsome, changeFlag_true]
  · have hsame : any = false := Bool.eq_false_iff.mpr fun h => by
      obtain ⟨c, r, hne⟩ := hchanged.mp h
      exact hne (hnone c r)
    rw [State.setReg_reg_self, hsame, changeFlag_false]
  · exact ((frame_setScreen s scr).of_pixels fun c r => .inr ⟨c, r, rfl⟩).trans
      ((frame_setReg _ Reg.vf _).of_part (.inl rfl))

/-- Settles O36: some row is out of range, so the rows before it are drawn, and then only the latch is set. -/
theorem drwOutOfBounds : Obligations.DrwOutOfBounds := by
  intro x y n s hout
  obtain ⟨scr, hdraw, hover⟩ := drawRows_error s.mem s.i.toNat (s.reg x).toNat (s.reg y).toNat (rowCount n) 0
    s.screen false (by unfold rowCount; omega) (Nat.succ_pos _)
  refine ⟨_, exec_drw_of_error hdraw, rfl, drawn_of_rowsOver hover rfl, ?_⟩
  exact ((frame_setScreen s scr).of_pixels fun c r => .inr ⟨c, r, rfl⟩).trans
    ((frame_setFault _ .memoryOutOfBounds).of_part (.inl rfl))

/-- A sprite bit depends on what memory reads as, and on nothing else of it. -/
theorem spriteBit_congr {m m' : Memory} (h : ∀ a, m'.read a = m.read a) (base c0 r0 : Nat) (c : Fin 64) (r : Fin 32) :
    spriteBit m' base c0 r0 c r = spriteBit m base c0 r0 c r := by
  unfold spriteBit
  rw [h]

/-- A sprite drawn twice, from memory that reads the same, shows the second time what it showed the first. -/
theorem Drawn.twice {s t u : State} {base c0 r0 rows : Nat} (hst : Drawn s t base c0 r0 rows)
    (htu : Drawn t u base c0 r0 rows) (hmem : ∀ a, t.mem.read a = s.mem.read a) (c : Fin 64) (r : Fin 32) :
    u.pixel c r = t.pixel c r := by
  by_cases hcov : Covered c0 r0 rows c r
  · calc u.pixel c r = spriteBit t.mem base c0 r0 c r := (htu c r).1 hcov
      _ = spriteBit s.mem base c0 r0 c r := spriteBit_congr hmem base c0 r0 c r
      _ = t.pixel c r := ((hst c r).1 hcov).symm
  · exact (htu c r).2 hcov

/-- Settles O37: the second `DRW` finds the operands and the sprite of the first, so it draws what is there. -/
theorem drwAgainChangesNothing : Obligations.DrwAgainChangesNothing := by
  intro x y n s t hrow hbyte hexec hx hy
  obtain ⟨t', e, hst, -, -, hframe⟩ := drwCompletes x y n s hrow hbyte
  cases e.symm.trans hexec
  have hi : t.i = s.i := hframe .addr (by simp)
  have hmem : ∀ a, t.mem.read a = s.mem.read a := fun a => hframe (.byte a) (by simp)
  obtain ⟨u, e', htu, -, hzero, -⟩ := drwCompletes x y n t (by rwa [hy]) (by rwa [hi])
  rw [hi, hx, hy] at htu
  have hsame := hst.twice htu hmem
  exact ⟨u, e', hsame, hzero hsame⟩

end Sys2Proof.Machine

namespace Sys2Proof.Machine

/-! # Timers (44_timers) -/

/-! ## The clock along a run (R123) -/

/-- The clock of `t` is not earlier than that of `s`, and not fewer samples have been taken of it. -/
def ClockNotBefore (s t : State) : Prop := s.clockLast ≤ t.clockLast ∧ s.clockDraws ≤ t.clockDraws

/-- What leaves the record of the clock alone does not turn it back. -/
theorem ClockNotBefore.of_same {s t : State} (h : Part.clock.Same s t) : ClockNotBefore s t :=
  ⟨h.1.ge, h.2.ge⟩

theorem ClockNotBefore.trans {s t u : State} (hst : ClockNotBefore s t) (htu : ClockNotBefore t u) : ClockNotBefore s u :=
  ⟨hst.1.trans htu.1, hst.2.trans htu.2⟩

/-- A sample does not turn the clock back. -/
theorem sampleNow_clockNotBefore (s : State) : ClockNotBefore s (sampleNow s).2 := by
  obtain ⟨now, e, hle⟩ := sampleNow_spec s
  rw [e]
  exact ⟨hle, Nat.le_succ _⟩

/-- No instruction turns the clock back: the three that may write its record take one sample. -/
theorem exec_clockNotBefore {i : Instr} {s t : State} (h : exec i s = .next t) : ClockNotBefore s t := by
  by_cases hi : MayWrite i .clock
  · obtain ⟨x, rfl | rfl | rfl⟩ := hi <;> cases h <;> exact sampleNow_clockNotBefore s
  · exact .of_same (exec_frame h .clock hi)

/-- No step turns the clock back, whichever of the four ways it goes. -/
theorem step_clockNotBefore {s t : State} (h : step s = .next t) : ClockNotBefore s t := by
  have hadv : ClockNotBefore s s.advance := .of_same ⟨rfl, rfl⟩
  rcases step_cases s with ⟨_, -, e⟩ | ⟨-, -, e⟩ | ⟨-, -, r, -, e⟩ | ⟨-, -, i, -, e⟩
  · cases e.symm.trans h; exact .of_same ⟨rfl, rfl⟩
  · cases e.symm.trans h; exact .of_same ⟨rfl, rfl⟩
  · cases e.symm.trans h; exact .of_same ⟨rfl, rfl⟩
  · exact hadv.trans (exec_clockNotBefore (e.symm.trans h))

/-- Settles O44, by induction on the number of steps (`core_run_keeps`). -/
theorem clockNeverDecreases : Obligations.ClockNeverDecreases :=
  core_run_keeps (P := ClockNotBefore) (fun _ => .of_same ⟨rfl, rfl⟩) (fun _ _ _ => ClockNotBefore.trans)
    (fun _ _ => step_clockNotBefore)

/-! ## The count (R122) -/

/-- A time in ticks (R120, decision D17). -/
theorem div_tickMs (q : Rat) : q / Config.tickMs = q * 3 / 50 := by
  unfold Config.tickMs
  ring

theorem tickMs_pos : 0 < Config.tickMs := by
  unfold Config.tickMs
  norm_num

/-- Settles O38: before the expiry the floor is not negative, so its truncation to a natural number is itself. -/
theorem remainingTicksFormula : Obligations.RemainingTicksFormula := by
  intro expiry now
  refine ⟨fun hexp => by rw [remainingTicks_of_expired hexp]; rfl, fun hrun => ?_⟩
  have hfloor : 0 ≤ ⌊(expiry - now) * 3 / 50⌋ := Int.floor_nonneg.mpr (by linarith)
  rw [remainingTicks_toNat, if_neg hrun.not_ge, div_tickMs, Nat.cast_min, Int.toNat_of_nonneg hfloor,
    Nat.cast_ofNat]

/-- Settles O41. -/
theorem remainingTicksFalls : Obligations.RemainingTicksFalls := fun expiry _ _ h => remainingTicks_antitone expiry h

/-- A timer that runs for `k` ticks more shows at least `k`. -/
theorem le_remainingTicks {k : Nat} {expiry now : Rat} (hk : k ≤ 255) (h : now + k * Config.tickMs ≤ expiry) :
    k ≤ (remainingTicks expiry now).toNat := by
  rw [remainingTicks_toNat]
  split
  case isTrue hexp =>
    have hzero : (k : Rat) ≤ 0 := nonpos_of_mul_nonpos_left (by linarith) tickMs_pos
    exact Nat.cast_nonpos.mp hzero |>.le
  case isFalse =>
    have hfloor : (k : Int) ≤ ⌊(expiry - now) / Config.tickMs⌋ :=
      Int.le_floor.mpr ((le_div_iff₀ tickMs_pos).mpr (le_sub_iff_add_le'.mpr h))
    omega

/-- A timer that runs for no more than `k` ticks shows at most `k`. -/
theorem remainingTicks_le {k : Nat} {expiry now : Rat} (h : expiry ≤ now + k * Config.tickMs) :
    (remainingTicks expiry now).toNat ≤ k := by
  rw [remainingTicks_toNat]
  split
  case isTrue => exact Nat.zero_le k
  case isFalse =>
    have hfloor : ⌊(expiry - now) / Config.tickMs⌋ ≤ k :=
      Int.floor_le_iff.mpr <| ((div_le_iff₀ tickMs_pos).mpr (sub_le_iff_le_add'.mpr h)).trans_lt (lt_add_one _)
    omega

/-! ## A set timer, read later (R121, R122, R127) -/

/-- The expiry that a set leaves, in milliseconds (R121). -/
theorem timerExpiry_eq (now : Rat) (a : Byte) : timerExpiry now a = now + (a.toNat : Rat) * 50 / 3 := by
  unfold timerExpiry Config.tickMs
  ring

/-- R127 b: a timer set to `a` ticks shows no more than `a`. -/
theorem remainingTicks_timerExpiry_le {now later : Rat} (h : now ≤ later) (a : Byte) :
    (remainingTicks (timerExpiry now a) later).toNat ≤ a.toNat :=
  remainingTicks_le (add_le_add_left h _)

/-- R127 c: at the sample it was set at, a timer shows what it was set to. -/
theorem remainingTicks_timerExpiry_self (now : Rat) (a : Byte) : remainingTicks (timerExpiry now a) now = a :=
  BitVec.eq_of_toNat_eq <| (remainingTicks_timerExpiry_le le_rfl a).antisymm
    (le_remainingTicks (Nat.le_of_lt_succ a.isLt) le_rfl)

/-- R127 e: within one tick of the set a timer has lost at most one. -/
theorem le_remainingTicks_timerExpiry_succ {now later : Rat} (h : later < now + Config.tickMs) (a : Byte) :
    a.toNat ≤ (remainingTicks (timerExpiry now a) later).toNat + 1 := by
  have ha := a.isLt
  rcases hk : a.toNat with _ | k
  · exact Nat.zero_le _
  · have hleft : later + k * Config.tickMs ≤ timerExpiry now a := by
      unfold timerExpiry
      rw [hk, Nat.cast_succ]
      linarith
    exact Nat.succ_le_succ (le_remainingTicks (by omega) hleft)

/-- Settles O42. -/
theorem setThenRemaining : Obligations.SetThenRemaining := by
  intro a now later hle
  refine ⟨remainingTicks_timerExpiry_le hle a, ?_, fun hover => ?_, fun hsoon => le_remainingTicks_timerExpiry_succ hsoon a⟩
  · rintro rfl
    exact remainingTicks_timerExpiry_self _ a
  · exact remainingTicks_of_expired (by rwa [timerExpiry_eq])

/-! ## The timer instructions (R124 to R126) -/

/-- `LD Vx,DT` at the sample it takes (R124). -/
theorem exec_ldVxDt (x : Reg) (s : State) :
    ∃ now, s.clockLast ≤ now ∧
      exec (.ldVxDt x) s = .next ((s.setClock now (s.clockDraws + 1)).setReg x (remainingTicks s.dt now)) := by
  obtain ⟨now, e, hle⟩ := sampleNow_spec s
  exact ⟨now, hle, by simp only [exec, execLdVxDt, e]⟩

/-- `LD DT,Vx` at the sample it takes (R125). -/
theorem exec_ldDtVx (x : Reg) (s : State) :
    ∃ now, s.clockLast ≤ now ∧
      exec (.ldDtVx x) s = .next ((s.setClock now (s.clockDraws + 1)).setDt (timerExpiry now (s.reg x))) := by
  obtain ⟨now, e, hle⟩ := sampleNow_spec s
  exact ⟨now, hle, by simp only [exec, execLdDtVx, e]⟩

/-- `LD ST,Vx` at the sample it takes (R126). -/
theorem exec_ldStVx (x : Reg) (s : State) :
    ∃ now, s.clockLast ≤ now ∧
      exec (.ldStVx x) s = .next ((s.setClock now (s.clockDraws + 1)).setSt (timerExpiry now (s.reg x))) := by
  obtain ⟨now, e, hle⟩ := sampleNow_spec s
  exact ⟨now, hle, by simp only [exec, execLdStVx, e]⟩

/-- A sample recorded, then one part written: the frame of the three timer instructions. -/
theorem frame_setClock_then {s t : State} {now : Rat} {n : Nat} {p : Part} (h : Frame (s.setClock now n) t (· = p)) :
    FrameBut s t [p, .clock] :=
  ((frame_setClock s now n).of_part (by simp)).trans (h.of_part (by simp))

/-- Settles O39: the sample is recorded and one register written. -/
theorem ldVxDtEffect : Obligations.LdVxDtEffect := by
  intro x s
  obtain ⟨now, hle, e⟩ := exec_ldVxDt x s
  exact ⟨_, e, hle, rfl, State.setReg_reg_self _ x _, frame_setClock_then (frame_setReg _ x _)⟩

/-- Settles O40: the sample is recorded and one expiry written. -/
theorem setTimerEffect : Obligations.SetTimerEffect := by
  intro x s
  obtain ⟨nowDt, hDt, eDt⟩ := exec_ldDtVx x s
  obtain ⟨nowSt, hSt, eSt⟩ := exec_ldStVx x s
  exact ⟨⟨_, eDt, hDt, rfl, timerExpiry_eq nowDt _, frame_setClock_then (frame_setDt _ _)⟩,
    ⟨_, eSt, hSt, rfl, timerExpiry_eq nowSt _, frame_setClock_then (frame_setSt _ _)⟩⟩

/-- Settles O43: the read's sample is not before the set's, and from then on no more shows than was set. -/
theorem delaySetThenRead : Obligations.DelaySetThenRead := by
  intro x y s
  obtain ⟨now, -, e⟩ := exec_ldDtVx x s
  refine ⟨_, e, fun u hdt hclock => ?_⟩
  obtain ⟨later, hlater, e'⟩ := exec_ldVxDt y u
  refine ⟨_, e', ?_⟩
  rw [State.setReg_reg_self, hdt]
  exact remainingTicks_timerExpiry_le (hclock.trans hlater) (s.reg x)

end Sys2Proof.Machine

namespace Sys2Proof.Machine

/-! # Faults (60_exceptions) -/

/-! ## The kind a step raises (R130 to R135) -/

/-- A fetch out of bounds is expected to fault as such, whatever the word (R135). -/
theorem expectedFault_of_fetch_fault {s : State} (hp : 4095 ≤ s.pc.toNat) :
    expectedFault s = some .memoryOutOfBounds := if_pos hp

/-- An illegal word is expected to raise its own kind (R131, R132). -/
theorem expectedFault_of_illegal {s : State} {r : DecodeReject} (hp : s.pc.toNat ≤ 4094)
    (hd : decodeWord (BitVec.ofNat 16 (wordAt s)) = .error r) : expectedFault s = some (rejectKind r) := by
  have hin : ¬ 4095 ≤ s.pc.toNat := by omega
  simp only [expectedFault, if_neg hin, hd]
  cases r <;> rfl

/-- An instruction that is not listed as a writer of the latch leaves it. -/
theorem exec_keeps_latch {i : Instr} {s t : State} (hi : ¬ MayWrite i .latch) (h : exec i s = .next t) :
    t.fault = s.fault := exec_frame h .latch hi

/-- `DRW` sets the latch exactly where some row or some byte is out of bounds (R114, R135). -/
theorem exec_drw_fault {x y : Reg} {n : Nibble} {s t : State} (hf : s.fault = none)
    (h : exec (.drw x y n) s = .next t) :
    t.fault =
      if (s.reg y).toNat + n.toNat ≤ 31 ∧ s.i.toNat + n.toNat ≤ 4095 then none else some .memoryOutOfBounds := by
  split
  · next hin =>
    obtain ⟨_, e, -, -, -, hframe⟩ := drwCompletes x y n s hin.1 hin.2
    cases e.symm.trans h
    exact (hframe .latch (by simp)).trans hf
  · next hout =>
    obtain ⟨_, e, hfault, -⟩ := drwOutOfBounds x y n s (by omega)
    cases e.symm.trans h
    exact hfault

/-- After the instruction at `pc` has run, the latch holds what the table of R130 says. -/
theorem exec_fault_expected {i : Instr} {s t : State} (hf : s.fault = none) (hp : s.pc.toNat ≤ 4094)
    (hd : decodeWord (BitVec.ofNat 16 (wordAt s)) = .ok i) (h : exec i s.advance = .next t) :
    t.fault = expectedFault s := by
  rw [expectedFault_ok hp hd]
  cases i with
  | ret =>
    rcases exec_ret_cases s.advance with ⟨below, hsp, e⟩ | ⟨hsp, e⟩ <;> cases e.symm.trans h
    · exact hf.trans (if_neg (by rw [← s.advance_sp]; omega)).symm
    · exact (if_pos hsp).symm
  | call nnn =>
    rcases exec_call_cases nnn s.advance with ⟨top, htop, e⟩ | ⟨hsp, e⟩ <;> cases e.symm.trans h
    · exact hf.trans (if_neg (by rw [← s.advance_sp]; omega)).symm
    · exact (if_pos hsp).symm
  | drw x y n => exact exec_drw_fault (s := s.advance) hf h
  -- the others do not write the latch, and the table lists none of them
  | _ => exact (exec_keeps_latch (by simp [MayWrite]) h).trans hf

/-- The loader fails in one way, on an image longer than 3584 bytes (R136). -/
theorem loadImage_eq_error_iff {image : List Byte} {s : State} {k : FaultKind} :
    loadImage image s = .error k ↔ k = .loadOversized ∧ 3584 < image.length := by
  unfold loadImage Config.progMax
  split
  · next hfit => exact ⟨nofun, fun ⟨_, hbig⟩ => absurd hfit (Nat.not_le.mpr hbig)⟩
  · next hbig => exact ⟨fun h => ⟨(Except.error.inj h).symm, Nat.not_le.mp hbig⟩, fun ⟨hk, _⟩ => congrArg _ hk.symm⟩

/-- Settles O11: the table's first line is the fetch, its next two the illegal words, the rest the instructions; the loader's kind
is the loader's alone. -/
theorem faultKindsExactly : Obligations.FaultKindsExactly := by
  refine ⟨fun s t hf h => ?_, fun _ _ _ => loadImage_eq_error_iff⟩
  rcases step_cases s with ⟨k, hk, -⟩ | ⟨-, hp, e⟩ | ⟨-, hp, r, hd, e⟩ | ⟨-, hp, i, hd, e⟩
  · cases hf.symm.trans hk
  · cases e.symm.trans h
    exact (expectedFault_of_fetch_fault hp).symm
  · cases e.symm.trans h
    exact (expectedFault_of_illegal hp hd).symm
  · exact exec_fault_expected hf hp hd (e.symm.trans h)

/-! ## The state at a fault (R139, decision D15) -/

/-- A state whose latch was just set is told by the kind in its latch. -/
theorem State.setFault_of_fault {s : State} {k k' : FaultKind} (h : (s.setFault k').fault = some k) :
    s.setFault k' = s.setFault k := congrArg s.setFault (Option.some.inj h)

/-- An instruction that sets the latch does nothing else, but that `DRW` may have drawn rows first. -/
theorem exec_fault_cases {i : Instr} {s t : State} {k : FaultKind} (hf : s.fault = none) (h : exec i s = .next t)
    (hk : t.fault = some k) :
    t = s.setFault k ∨ ∃ x y n scr, i = .drw x y n ∧ t = (s.setScreen scr).setFault k := by
  by_cases hlatch : MayWrite i .latch
  · rcases hlatch with rfl | ⟨nnn, rfl⟩ | ⟨x, y, n, rfl⟩
    · rcases exec_ret_cases s with ⟨below, -, e⟩ | ⟨-, e⟩ <;> cases e.symm.trans h
      · cases hf.symm.trans hk
      · exact .inl (State.setFault_of_fault hk)
    · rcases exec_call_cases nnn s with ⟨top, -, e⟩ | ⟨-, e⟩ <;> cases e.symm.trans h
      · cases hf.symm.trans hk
      · exact .inl (State.setFault_of_fault hk)
    · rcases exec_drw_cases x y n s with ⟨scr, any, -, e⟩ | ⟨scr, -, e⟩ <;> cases e.symm.trans h
      · cases hf.symm.trans hk
      · exact .inr ⟨x, y, n, scr, rfl, State.setFault_of_fault hk⟩
  · cases hf.symm.trans ((exec_keeps_latch hlatch h).symm.trans hk)

/-- A step that sets the latch faults at the fetch; after the advance, with nothing else done; or in `DRW`, with rows drawn. -/
theorem step_fault_cases {s t : State} {k : FaultKind} (hf : s.fault = none) (h : step s = .next t)
    (hk : t.fault = some k) :
    (4095 ≤ s.pc.toNat ∧ t = s.setFault k) ∨
    (s.pc.toNat ≤ 4094 ∧ t = s.advance.setFault k) ∨
    (s.pc.toNat ≤ 4094 ∧ ∃ x y n scr, decodeWord (BitVec.ofNat 16 (wordAt s)) = .ok (.drw x y n) ∧
      t = (s.advance.setScreen scr).setFault k) := by
  rcases step_cases s with ⟨_, hk', -⟩ | ⟨-, hp, e⟩ | ⟨-, hp, r, -, e⟩ | ⟨-, hp, i, hd, e⟩
  · cases hf.symm.trans hk'
  · cases e.symm.trans h
    exact .inl ⟨hp, State.setFault_of_fault hk⟩
  · cases e.symm.trans h
    exact .inr (.inl ⟨hp, State.setFault_of_fault hk⟩)
  · rcases exec_fault_cases (s := s.advance) hf (e.symm.trans h) hk with ht | ⟨x, y, n, scr, rfl, ht⟩
    · exact .inr (.inl ⟨hp, ht⟩)
    · exact .inr (.inr ⟨hp, x, y, n, scr, hd, ht⟩)

/-- Settles O12: of the three ways a step can fault, two advance `pc` and one, `DRW`'s, writes the screen. -/
theorem faultsArePrecise : Obligations.FaultsArePrecise := by
  intro s t k hf h hk
  rcases step_fault_cases hf h hk with ⟨hp, rfl⟩ | ⟨hp, rfl⟩ | ⟨hp, x, y, n, scr, hd, rfl⟩
  · exact ⟨(frame_setFault s k).of_part (.inl rfl), fun _ => rfl, fun _ => by omega, fun _ _ _ => rfl⟩
  · refine ⟨?_, fun _ => by omega, fun _ => State.advance_toNat hp, fun _ _ _ => rfl⟩
    exact ((frame_advance s).of_part (.inr (.inl rfl))).trans ((frame_setFault _ k).of_part (.inl rfl))
  · refine ⟨?_, fun _ => by omega, fun _ => State.advance_toNat hp, fun hnot => absurd hd (hnot x y n)⟩
    exact ((frame_advance s).of_part (.inr (.inl rfl))).trans
      (((frame_setScreen _ scr).of_pixels fun c r => .inr (.inr ⟨c, r, rfl⟩)).trans
        ((frame_setFault _ k).of_part (.inl rfl)))

end Sys2Proof.Machine

namespace Sys2Proof.Machine

/-! # The state at reset (70_reset_and_hazards R150) -/

/-- After reset every address above the glyph table reads as zero (R31, decision D8). -/
theorem reset_read_zero {a : Nat} (h : 80 ≤ a) : State.reset.mem.read a = 0 := dif_neg (by omega)

/-- After reset every register is zero. -/
theorem reset_reg (x : Reg) : State.reset.reg x = 0 := Vector.getElem_replicate _

/-- After reset every pixel is unlit: the screen is the cleared one. -/
theorem reset_pixel (c : Fin 64) (r : Fin 32) : State.reset.pixel c r = false :=
  clearScreen_getElem c.val r.val r.isLt c.isLt

/-- Settles O47: memory by which side of the glyph table's end an address is on; the timers because both expiries are 0. -/
theorem resetState : Obligations.ResetState := by
  have htimer : ∀ now : Rat, 0 ≤ now → remainingTicks 0 now = 0 := fun _ => remainingTicks_of_expired
  exact ⟨rfl, fun a => reset_read_glyph a.isLt, fun _ => reset_read_zero, reset_reg, rfl, rfl, reset_pixel, rfl,
    fun now h => ⟨htimer now h, htimer now h⟩⟩

/-- Settles O51: memory is canonical, the expiries and the clock are 0, no return address is held and the latch is clear. -/
theorem resetInv : Obligations.ResetInv := inv_reset

end Sys2Proof.Machine

namespace Sys2Proof.Machine

/-! # Decode and encode are inverse (30_encoding) -/

/-- A class 8 word goes to the decoder of the selectors (R54, R58). -/
theorem decodeWord_encXyn_alu (x y : Reg) (n : Nibble) :
    decodeWord (encXyn 0x8 x y n) = decodeAlu (encXyn 0x8 x y n) := by
  simp [decodeWord]

/-- A class F word goes to the decoder of the low bytes (R54, R60). -/
theorem decodeWord_encXkk_sub (x : Reg) (kk : Byte) : decodeWord (encXkk 0xF x kk) = decodeF (encXkk 0xF x kk) := by
  simp [decodeWord]

/-- Every instruction is read back from its word: in each format the decoder finds the class digit, and below it the operands and
the selector, as the encoder put them there (R52, R54). -/
theorem decodeWord_encode (i : Instr) : decodeWord (encode i) = .ok i := by
  cases i with
  -- the two fixed words
  | cls | ret => rfl
  -- format `NNN`: the class digit alone tells the instruction
  | jp _ | call _ | ldI _ | jpV0 _ => simp [encode, decodeWord]
  -- format `XKK`: the class digit alone tells the instruction
  | seImm _ _ | sneImm _ _ | ldImm _ _ | addImm _ _ | rnd _ _ => simp [encode, decodeWord]
  -- format `XYN`, and format `XY` in classes 5 and 9, whose last digit must be 0
  | drw _ _ _ | seReg _ _ | sneReg _ _ => simp [encode, decodeWord]
  -- format `XY` in class 8: the last digit is the selector
  | ldReg _ _ | orReg _ _ | andReg _ _ | xorReg _ _ | addReg _ _ | subReg _ _ | shr _ _ | subnReg _ _ | shl _ _ =>
    rw [encode, decodeWord_encXyn_alu]
    simp [decodeAlu]
  -- format `XSUB`: the low byte is the sub-opcode
  | ldVxDt _ | ldDtVx _ | ldStVx _ | addI _ =>
    rw [encode, decodeWord_encXkk_sub]
    simp [decodeF]

/-- Settles O2, format by format: each field of a word is read back as it was written. -/
theorem decodeEncode : Obligations.DecodeEncode := decodeWord_encode

/-- Settles O3: the decoder's answer is right about every word (`decodeWord_sound`), and an instruction it answers has that word. -/
theorem encodeDecode : Obligations.EncodeDecode := fun _ _ => encode_of_decodeWord

/-- Settles O1: each word is evaluated. -/
theorem sampleWordsDecode : Obligations.SampleWordsDecode := by
  unfold Obligations.SampleWordsDecode
  decide

end Sys2Proof.Machine
